-- ==== Sys2Proof/Word.lean ====
section
/-! DEFINITION. The word types of the pyxe core: 32-bit words, 8-bit bytes, and text.

A register, the instruction pointer, an address and an immediate are all 32 bits wide (`XLEN`, 00_scope.md R9).
Everything that packs, splits or converts words stands in `Sys2Proof/Decode.lean` and in `Sys2Proof/Machine/`. -/

namespace Sys2Proof

/-- A 32-bit value: a register, an address, an immediate (R9, R34). Arithmetic on it wraps modulo `2^32` (R249). -/
abbrev Word := BitVec 32

/-- An 8-bit value: a memory cell, an opcode, a tag, a raw field (R11). -/
abbrev Byte := BitVec 8

/-- A character string of the assembler's source or of an input line (R15). -/
abbrev Text := List Char

/-- The memory buffer as sorted (address, byte) pairs: an address that is not listed reads as zero (R46, R49). -/
abbrev Memory := List Host.Cell

end Sys2Proof
end

