-- ==== Sys2Proof/Syntax.lean ====
section
/-! DEFINITION. The syntax of the pyxe instruction set: the 21 mnemonics, the six forms, the tagged operand and the
one inductive of instructions.

An instruction holds its RAW fields, as they stand in the byte stream: a raw register byte, a raw vector byte, a raw
address, a tagged operand of one tag byte and one payload word. The opcode byte alone selects the instruction (R100,
R111); what a raw field means is decided by the operand unpacker while the instruction executes (R210, R215), so a
bad tag or a bad register code belongs to a DECODED instruction that stops, not to a byte string that fails to
decode. -/

namespace Sys2Proof

/-- The 21 mnemonics (R3). -/
inductive Mnemonic where
  | mov | add | sub | cmp | jmp | je | jne | call | ret | push | pop
  | inc | dec | int | nop | hlt | and | or | xor | input | print
  deriving DecidableEq, Repr

/-- The six byte-layout classes (R101). -/
inductive Form where
  | niladic
  | unaryRegister
  | unaryImmediateByte
  | unaryAddress
  | binaryOperand
  | print
  deriving DecidableEq, Repr

/-- A tagged operand as it stands in an encoding: a tag byte and a 4-byte payload (R108). -/
structure TaggedOperand where
  tag : Byte
  payload : Word
  deriving DecidableEq, Repr

/-- An instruction with its raw fields, one constructor per row of the opcode table. In the binary forms the
destination comes first (R106). -/
inductive Instr where
  | mov (d src : TaggedOperand)
  | add (d src : TaggedOperand)
  | sub (d src : TaggedOperand)
  | cmp (d src : TaggedOperand)
  | jmp (target : Word)
  | je (target : Word)
  | jne (target : Word)
  | call (target : Word)
  | ret
  | push (r : Byte)
  | pop (r : Byte)
  | inc (r : Byte)
  | dec (r : Byte)
  | int (vector : Byte)
  | nop
  | hlt
  | and (d src : TaggedOperand)
  | or (d src : TaggedOperand)
  | xor (d src : TaggedOperand)
  | input (r : Byte)
  | print (o : TaggedOperand)
  deriving DecidableEq, Repr

end Sys2Proof
end

