-- ==== Sys2Proof/Config.lean ====
section
/-! DEFINITION. The parameters of the core (00_scope.md R9) and its free values.

`Config` is the record of every OPEN parameter of R9. It is plain data; `State` carries it in the field `cfg`, which
no step writes, so that a claim about every state is a claim about every parameter choice (92_eei_decisions.md D1: a
claim quantifies over `OPC` or names it). The reference values stand in `Sys2Proof/Machine/Parameters.lean`.

Two parameters of R9 are functions that only the host knows: `HANDLER` (what an installed handler does) and
`PARSE_INPUT` (the line grammar). Each has data forms that the model evaluates, and one form that stands for any
other choice: an opaque constant without a body, so that no proof can know a value of it. -/

namespace Sys2Proof

/-- The 8 register codes, 0x01 to 0x08; there is no register 0 (R30). -/
inductive RegCode where
  | c1 | c2 | c3 | c4 | c5 | c6 | c7 | c8
  deriving DecidableEq, Repr

/-- One value for each of the 8 registers. -/
structure PerReg (α : Type) where
  r1 : α
  r2 : α
  r3 : α
  r4 : α
  r5 : α
  r6 : α
  r7 : α
  r8 : α
  deriving DecidableEq, Repr

/-- The register file: 8 slots of 32 bits (R30, R34). -/
abbrev RegFile := PerReg Word

/-- `OPC`: the opcode byte of each mnemonic (R110). -/
structure OpcodeMap where
  mov : Byte
  add : Byte
  sub : Byte
  cmp : Byte
  jmp : Byte
  je : Byte
  jne : Byte
  call : Byte
  ret : Byte
  push : Byte
  pop : Byte
  inc : Byte
  dec : Byte
  int : Byte
  nop : Byte
  hlt : Byte
  and : Byte
  or : Byte
  xor : Byte
  input : Byte
  print : Byte
  deriving DecidableEq, Repr

/-- `UNKNOWN_SRC`: the value read from a tag-0x00 operand (R212, D14). -/
inductive UnknownSource where
  | zero | fault
  deriving DecidableEq, Repr

/-- `DEST_NONWRITABLE`: a write to an Immediate or Unknown destination (R213, D15). -/
inductive NonWritable where
  | drop | fault
  deriving DecidableEq, Repr

/-- `BAD_TAG`: an operand tag byte of 0x04 or above (R210, D16). -/
inductive BadTag where
  | fault | asUnknown
  deriving DecidableEq, Repr

/-- `BAD_REG`: a register code outside 0x01 to 0x08; R9 gives this parameter one value (R116, D17). -/
inductive BadReg where
  | fault
  deriving DecidableEq, Repr

/-- `MULTICHAR_DB`: what pass 4 does with a multi-character string (R165, D36). -/
inductive MulticharDb where
  | expand | firstByte
  deriving DecidableEq, Repr

/-- `INPUT_EOF`: INPUT when the host has no line to supply (R343, D25). -/
inductive InputEof where
  | stuck | zero
  deriving DecidableEq, Repr

/-- `PARSE_INPUT`: the reference grammar of D25, or some other parser the host names by a number, about which nothing
is known (assumption 9). -/
inductive InputParser where
  | decimal
  | hostDefined (k : Nat)
  deriving DecidableEq, Repr

/-- The OPEN parameters of R9, but for `HANDLER`, whose choices stand in the interrupt-vector table. Sizes and origins
are numbers, since `MEM_SIZE` may be `2^32` itself (R10). -/
structure Config where
  /-- `OPC`. -/
  opc : OpcodeMap
  /-- `REGNAME`. -/
  regNames : PerReg Text
  /-- `ACC_CODE`. -/
  accCode : RegCode
  /-- `SP_CODE`. -/
  spCode : RegCode
  /-- `MEM_SIZE`, in bytes. -/
  memSize : Nat
  /-- `CODE_ORIGIN`. -/
  codeOrigin : Nat
  /-- `DATA_ORIGIN`. -/
  dataOrigin : Nat
  /-- `ALIASES`: surface keyword and canonical name. -/
  aliases : List (Text × Text)
  /-- `PRINT_DECL_SIZE`. -/
  printDeclSize : Nat
  unknownSrc : UnknownSource
  destNonwritable : NonWritable
  badTag : BadTag
  badReg : BadReg
  multicharDb : MulticharDb
  parseInput : InputParser
  inputEof : InputEof
  deriving DecidableEq, Repr

/-- Why an operand or a register byte has no meaning: the recorded fields of an `UndefinedOperand` diagnostic
(R210, R212, R213, R215, R401 row 8). -/
inductive UndefinedInfo where
  /-- A tag of 0x04 or above, or an Unknown source under `UNKNOWN_SRC = fault`. -/
  | tag (t : Byte)
  /-- A register code outside 0x01 to 0x08. -/
  | regCode (c : Byte)
  /-- A nonwritable destination under `DEST_NONWRITABLE = fault`. -/
  | destTag (t : Byte)
  deriving DecidableEq, Repr

/-- Which access a `MemoryFault` diagnostic is about (R401 row 4). -/
inductive AccessKind where
  | read | write | fetch
  deriving DecidableEq, Repr

/-- The diagnostics of R401, a closed taxonomy of eight. `unresolvedSymbol` is in the taxonomy and is never written to
the channel ("silent, non-fatal by design"). -/
inductive Diagnostic where
  | syntaxError (line : Nat) (token : Text)
  | unresolvedSymbol
  | decodeFailure (opcode : Byte) (addr : Word)
  | memoryFault (kind : AccessKind) (addr : Word) (size : Nat)
  | inputFormatError (line : Text)
  | unhandledInterrupt (vector : Byte)
  | nonWritableDestination (tag : Byte)
  | undefinedOperand (info : UndefinedInfo)
  deriving DecidableEq, Repr

/-- The widths a bounded memory access has: 1 or 4 bytes (R72, R75). -/
inductive Width where
  | byte | word
  deriving DecidableEq, Repr

/-- One thing a host handler does to the machine, which it reaches "only through its register file and memory
read/write operations", and the output bytes of its console service (R420). -/
inductive HandlerAct where
  | setReg (c : RegCode) (v : Word)
  | load (w : Width) (addr : Word)
  | store (w : Width) (addr : Word) (v : Word)
  | print (bytes : List Byte)
  deriving DecidableEq, Repr

/-- How a handler ends: it returns, it ends the run, or it never returns (R420). -/
inductive HandlerEnd where
  | ret | exit | blocks
  deriving DecidableEq, Repr, Inhabited

/-- What one invocation of a handler does, in order, and how it ends. -/
structure HandlerRun where
  acts : List HandlerAct
  ending : HandlerEnd
  deriving DecidableEq, Repr, Inhabited

/-- A handler the host installs: one that does the same thing at every invocation, written out as data, or one the
host names by a number, about which nothing is known (assumption 8). -/
inductive Handler where
  | script (run : HandlerRun)
  | host (id : Nat)
  deriving DecidableEq, Repr

/-- What a handler can see of the machine: registers, memory and channels (R420). -/
structure HandlerView where
  x : RegFile
  mem : Memory
  output : List Byte
  input : List Text
  diags : List Diagnostic
  deriving DecidableEq, Repr

/-- FREE VALUE (assumption 8): what the host's handler number `id` does at the `call`-th handler invocation of the
machine, on what it sees. It has no body: nothing can be proved about its value. -/
opaque Config.hostHandler : (id : Nat) → (call : Nat) → HandlerView → HandlerRun

/-- FREE VALUE (assumption 9): the integer that the host's line parser number `k` reads from a line, if any. -/
opaque Config.hostParser : (k : Nat) → Text → Option Int

end Sys2Proof
end

