-- ==== Sys2Proof/Decode.lean ====
section
/-! DEFINITION. The encoding of 30_encoding.md: byte order, forms and lengths, the opcode map, the decoder (total on
any list of bytes, rejecting by name) and, after it, the encoder.

The opcode assignment is the OPEN parameter `OPC` (R110): decoder and encoder take it as an argument. The reference
assignment, the one opcode_table.json uses, is `OpcodeMap.reference`. -/

namespace Sys2Proof

/-! ### Byte order (R11, R71) -/

/-- `le32`: the 32-bit value of four bytes, `b0` from the lowest address. -/
def le32 (b0 b1 b2 b3 : Byte) : Word := b3 ++ b2 ++ b1 ++ b0

/-- `byte_k(v)`: bits `8k+7` to `8k` of `v`. -/
def byteOf (k : Nat) (v : Word) : Byte := v.extractLsb' (8 * k) 8

/-- The four bytes of a word, the least significant first. -/
def le32Bytes (v : Word) : List Byte := [byteOf 0 v, byteOf 1 v, byteOf 2 v, byteOf 3 v]

/-- `u32`: a mathematical integer modulo `2^32` (R11). -/
def u32 (n : Int) : Word := BitVec.ofInt 32 n

/-! ### Forms and lengths (R101) -/

/-- All 21 mnemonics. -/
def Mnemonic.all : List Mnemonic :=
  [.mov, .add, .sub, .cmp, .jmp, .je, .jne, .call, .ret, .push, .pop,
    .inc, .dec, .int, .nop, .hlt, .and, .or, .xor, .input, .print]

/-- The form of each mnemonic. -/
def Mnemonic.form : Mnemonic → Form
  | .hlt | .nop | .ret => .niladic
  | .inc | .dec | .push | .pop | .input => .unaryRegister
  | .int => .unaryImmediateByte
  | .jmp | .je | .jne | .call => .unaryAddress
  | .mov | .add | .sub | .cmp | .and | .or | .xor => .binaryOperand
  | .print => .print

/-- The encoded length of a form in bytes. -/
def Form.length : Form → Nat
  | .niladic => 1
  | .unaryRegister => 2
  | .unaryImmediateByte => 2
  | .unaryAddress => 5
  | .binaryOperand => 11
  | .print => 6

/-- The mnemonic of an instruction. -/
def Instr.mnemonic : Instr → Mnemonic
  | .mov _ _ => .mov
  | .add _ _ => .add
  | .sub _ _ => .sub
  | .cmp _ _ => .cmp
  | .jmp _ => .jmp
  | .je _ => .je
  | .jne _ => .jne
  | .call _ => .call
  | .ret => .ret
  | .push _ => .push
  | .pop _ => .pop
  | .inc _ => .inc
  | .dec _ => .dec
  | .int _ => .int
  | .nop => .nop
  | .hlt => .hlt
  | .and _ _ => .and
  | .or _ _ => .or
  | .xor _ _ => .xor
  | .input _ => .input
  | .print _ => .print

/-- The encoded length of an instruction: its form's (R113). -/
def Instr.length (i : Instr) : Nat := i.mnemonic.form.length

/-! ### The opcode map (R110, R111) -/

/-- The opcode byte of a mnemonic. -/
def OpcodeMap.code (opc : OpcodeMap) : Mnemonic → Byte
  | .mov => opc.mov
  | .add => opc.add
  | .sub => opc.sub
  | .cmp => opc.cmp
  | .jmp => opc.jmp
  | .je => opc.je
  | .jne => opc.jne
  | .call => opc.call
  | .ret => opc.ret
  | .push => opc.push
  | .pop => opc.pop
  | .inc => opc.inc
  | .dec => opc.dec
  | .int => opc.int
  | .nop => opc.nop
  | .hlt => opc.hlt
  | .and => opc.and
  | .or => opc.or
  | .xor => opc.xor
  | .input => opc.input
  | .print => opc.print

/-- The reference assignment (R110, D1): the spec's own choice, which opcode_table.json uses. -/
def OpcodeMap.reference : OpcodeMap where
  mov := 0x01
  add := 0x02
  sub := 0x03
  cmp := 0x04
  jmp := 0x05
  je := 0x06
  jne := 0x07
  call := 0x08
  ret := 0x09
  push := 0x0A
  pop := 0x0B
  inc := 0x0C
  dec := 0x0D
  int := 0x0E
  nop := 0x0F
  hlt := 0xFF
  and := 0x11
  or := 0x12
  xor := 0x13
  input := 0x14
  print := 0x15

/-- Opcode-to-handler dispatch: the mnemonic of an opcode byte, if one is assigned (R111). With an injective `OPC`
(R10) there is at most one. -/
def OpcodeMap.mnemonicOf (opc : OpcodeMap) (b : Byte) : Option Mnemonic :=
  Mnemonic.all.find? fun m => opc.code m == b

/-! ### The decoder -/

/-- Why a list of bytes is no instruction. -/
inductive DecodeError where
  /-- There is no opcode byte. -/
  | noBytes
  /-- `OPC` does not assign this opcode byte (R114). -/
  | unassignedOpcode (op : Byte)
  /-- The list ends inside the fields of the form. The machine never meets this: it fetches every byte of an
  instruction from the buffer (R204). -/
  | truncated
  deriving DecidableEq, Repr

/-- An instruction and the bytes after it, or why there is none. -/
abbrev Decoded := Except DecodeError (Instr × List Byte)

/-- Niladic: no field (R102). -/
def decodeNiladic (i : Instr) (bs : List Byte) : Decoded := .ok (i, bs)

/-- Unary-register and Unary-immediate-byte: one raw byte (R103, R104). -/
def decodeRawByte (mk : Byte → Instr) : List Byte → Decoded
  | b :: bs => .ok (mk b, bs)
  | [] => .error .truncated

/-- Unary-address: a 4-byte little-endian address, no tag byte (R105). -/
def decodeAddress (mk : Word → Instr) : List Byte → Decoded
  | b0 :: b1 :: b2 :: b3 :: bs => .ok (mk (le32 b0 b1 b2 b3), bs)
  | _ => .error .truncated

/-- Print: one tagged operand, a tag byte and a 4-byte little-endian payload (R107, R108). -/
def decodeOperand (mk : TaggedOperand → Instr) : List Byte → Decoded
  | t :: b0 :: b1 :: b2 :: b3 :: bs => .ok (mk ⟨t, le32 b0 b1 b2 b3⟩, bs)
  | _ => .error .truncated

/-- Binary-operand: two tagged operands, the destination first (R106). -/
def decodeBinary (mk : TaggedOperand → TaggedOperand → Instr) : List Byte → Decoded
  | t :: b0 :: b1 :: b2 :: b3 :: u :: c0 :: c1 :: c2 :: c3 :: bs =>
    .ok (mk ⟨t, le32 b0 b1 b2 b3⟩ ⟨u, le32 c0 c1 c2 c3⟩, bs)
  | _ => .error .truncated

/-- The fields after the opcode byte of each mnemonic. -/
def decodeFields : Mnemonic → List Byte → Decoded
  | .mov => decodeBinary .mov
  | .add => decodeBinary .add
  | .sub => decodeBinary .sub
  | .cmp => decodeBinary .cmp
  | .jmp => decodeAddress .jmp
  | .je => decodeAddress .je
  | .jne => decodeAddress .jne
  | .call => decodeAddress .call
  | .ret => decodeNiladic .ret
  | .push => decodeRawByte .push
  | .pop => decodeRawByte .pop
  | .inc => decodeRawByte .inc
  | .dec => decodeRawByte .dec
  | .int => decodeRawByte .int
  | .nop => decodeNiladic .nop
  | .hlt => decodeNiladic .hlt
  | .and => decodeBinary .and
  | .or => decodeBinary .or
  | .xor => decodeBinary .xor
  | .input => decodeRawByte .input
  | .print => decodeOperand .print

/-- The decoder: the opcode byte selects the instruction and the length of its fields (R100, R111, R114). -/
def decode (opc : OpcodeMap) : List Byte → Decoded
  | [] => .error .noBytes
  | op :: bs =>
    match opc.mnemonicOf op with
    | none => .error (.unassignedOpcode op)
    | some m => decodeFields m bs

/-! ### The encoder -/

/-- The 5 bytes of a tagged operand (R108). -/
def TaggedOperand.bytes (o : TaggedOperand) : List Byte := o.tag :: le32Bytes o.payload

/-- The bytes after the opcode byte (R102 to R107). -/
def Instr.fieldBytes : Instr → List Byte
  | .mov d src | .add d src | .sub d src | .cmp d src | .and d src | .or d src | .xor d src => d.bytes ++ src.bytes
  | .jmp t | .je t | .jne t | .call t => le32Bytes t
  | .ret | .nop | .hlt => []
  | .push r | .pop r | .inc r | .dec r | .input r => [r]
  | .int v => [v]
  | .print o => o.bytes

/-- The encoder: the bytes of an instruction, the opcode byte at the lowest address (R100). -/
def encode (opc : OpcodeMap) (i : Instr) : List Byte := opc.code i.mnemonic :: i.fieldBytes

/-! ### The opcode table's words -/

/-- The longest instruction, in bytes (R100). -/
def maxInstrLength : Nat := 11

/-- Byte `k` of an instruction whose bits are `w`, bit 0 the least significant of the first byte; the bits from
`nbits` on are zero. -/
def tableByte (nbits w k : Nat) : Byte := BitVec.ofNat 8 ((w % 2 ^ nbits) / 2 ^ (8 * k))

/-- The bytes of such an instruction, up to the longest one. -/
def tableBytes (nbits w : Nat) : List Byte := (List.range maxInstrLength).map (tableByte nbits w)

/-- The instruction the decoder reads from an instruction whose bits are `w`, under the reference `OPC` of
opcode_table.json. -/
def decodeTableWord (nbits w : Nat) : Option Instr :=
  match decode OpcodeMap.reference (tableBytes nbits w) with
  | .ok (i, _) => some i
  | .error _ => none

end Sys2Proof
end

