-- ==== Sys2Proof/Machine/Registers.lean ====
section
/-! DEFINITION. The register codes and the register file (10_state.md R30 to R34). Every read and write of a register
goes through `PerReg.get` and `PerReg.set`; no register is hardwired (R33). -/

namespace Sys2Proof

/-- All 8 register codes, in the order of their bytes. -/
def RegCode.all : List RegCode := [.c1, .c2, .c3, .c4, .c5, .c6, .c7, .c8]

/-- The byte of a register code (R30). -/
def RegCode.toByte : RegCode → Byte
  | .c1 => 0x01
  | .c2 => 0x02
  | .c3 => 0x03
  | .c4 => 0x04
  | .c5 => 0x05
  | .c6 => 0x06
  | .c7 => 0x07
  | .c8 => 0x08

/-- The register code of a byte: 0x01 to 0x08 and no other (R30, R116). -/
def RegCode.ofByte? (b : Byte) : Option RegCode := RegCode.all.find? fun c => c.toByte == b

/-- `x[c]`: the one read of a register slot. -/
def PerReg.get {α : Type} (x : PerReg α) : RegCode → α
  | .c1 => x.r1
  | .c2 => x.r2
  | .c3 => x.r3
  | .c4 => x.r4
  | .c5 => x.r5
  | .c6 => x.r6
  | .c7 => x.r7
  | .c8 => x.r8

/-- `x[c] <- v`: the one write of a register slot. -/
def PerReg.set {α : Type} (x : PerReg α) (c : RegCode) (v : α) : PerReg α :=
  match c with
  | .c1 => { x with r1 := v }
  | .c2 => { x with r2 := v }
  | .c3 => { x with r3 := v }
  | .c4 => { x with r4 := v }
  | .c5 => { x with r5 := v }
  | .c6 => { x with r6 := v }
  | .c7 => { x with r7 := v }
  | .c8 => { x with r8 := v }

/-- All 8 slots at one value. -/
def PerReg.all {α : Type} (v : α) : PerReg α := ⟨v, v, v, v, v, v, v, v⟩

end Sys2Proof
end

