-- ==== Sys2Proof/Machine/Parameters.lean ====
section
/-! DEFINITION. The reference values of the OPEN parameters (00_scope.md R9, 92_eei_decisions.md). They are the spec's
own choices, not the source's: a claim that names them is a claim about the reference machine only
(assumption 1). -/

namespace Sys2Proof

/-- The text "ACCUMULATOR", the one register name the source gives (R31). -/
def accumulatorName : Text := "ACCUMULATOR".toList

/-- The reference `REGNAME` (R31, D2). -/
def referenceRegNames : PerReg Text where
  r1 := accumulatorName
  r2 := "REG2".toList
  r3 := "REG3".toList
  r4 := "REG4".toList
  r5 := "REG5".toList
  r6 := "REG6".toList
  r7 := "REG7".toList
  r8 := "STACKPTR".toList

/-- The reference value of every OPEN parameter of R9. -/
def Config.reference : Config where
  opc := OpcodeMap.reference
  regNames := referenceRegNames
  accCode := .c1
  spCode := .c8
  memSize := 0x10000
  codeOrigin := 0x1000
  dataOrigin := 0x8000
  aliases := [("DB".toList, "defbyte".toList)]
  printDeclSize := 6
  unknownSrc := .zero
  destNonwritable := .drop
  badTag := .fault
  badReg := .fault
  multicharDb := .expand
  parseInput := .decimal
  inputEof := .stuck

end Sys2Proof
end

