-- ==== Sys2Proof/WellFormed.lean ====
section
/-! DEFINITION. What a well-formed configuration (R10) and a well-formed instruction (R103, R109) are, as checks that
compute.

A well-formed instruction is one whose raw fields are as the encoding tables give them: a register byte 0x01 to 0x08,
a tag 0x00 to 0x03, zero padding, a zero payload under Unknown. The machine RUNS ill-formed ones too (R117, R210,
R215); the assembler never emits an ill-formed tagged operand. -/

namespace Sys2Proof

/-! ### Configurations (R10) -/

/-- `OPC` is injective over the 21 mnemonics. -/
def OpcodeMap.injective (opc : OpcodeMap) : Bool :=
  Mnemonic.all.all fun m => Mnemonic.all.all fun n => (opc.code m != opc.code n) || m == n

/-- `0 ≤ CODE_ORIGIN < DATA_ORIGIN < MEM_SIZE ≤ 2^32`. -/
def Config.layoutOk (cfg : Config) : Bool :=
  cfg.codeOrigin < cfg.dataOrigin && cfg.dataOrigin < cfg.memSize && cfg.memSize ≤ 2 ^ 32

/-- The region from `DATA_ORIGIN` up leaves room for the stack: at least one 4-byte word. The room for a program's
data is what `load` requires (R450). R10 gives no number (assumption 12). -/
def Config.stackRoomOk (cfg : Config) : Bool := cfg.dataOrigin + 4 ≤ cfg.memSize

/-- `REGNAME` is injective. -/
def Config.regNamesOk (cfg : Config) : Bool :=
  RegCode.all.all fun c => RegCode.all.all fun d => (cfg.regNames.get c != cfg.regNames.get d) || c == d

/-- The register of code `ACC_CODE` is the one named ACCUMULATOR (R9, R31). -/
def Config.accumulatorOk (cfg : Config) : Bool := cfg.regNames.get cfg.accCode == accumulatorName

/-- `SP_CODE ≠ ACC_CODE`. -/
def Config.stackPointerOk (cfg : Config) : Bool := cfg.spCode != cfg.accCode

/-- The constraints of R10: a machine is created only for a configuration that meets them all. -/
def Config.valid (cfg : Config) : Bool :=
  cfg.opc.injective && cfg.layoutOk && cfg.stackRoomOk && cfg.regNamesOk && cfg.accumulatorOk && cfg.stackPointerOk

/-! ### Instructions (R103, R109) -/

/-- A raw register byte names a register: 0x01 to 0x08. -/
def regByteOk (r : Byte) : Bool := 0x01#8 ≤ r && r ≤ 0x08#8

/-- A tagged operand is as R109 gives it for its tag. -/
def TaggedOperand.wellFormed (o : TaggedOperand) : Bool :=
  if o.tag = 0x00#8 then o.payload == 0
  else if o.tag = 0x01#8 then regByteOk (byteOf 0 o.payload) && o.payload.toNat < 256
  else o.tag == 0x02#8 || o.tag == 0x03#8

/-- Every field of an instruction is as its form's table gives it. Every vector byte and every target is legal
(R104, R105), and any operand kind may stand in any operand position (R119). -/
def Instr.wellFormed : Instr → Bool
  | .mov d src | .add d src | .sub d src | .cmp d src | .and d src | .or d src | .xor d src =>
    d.wellFormed && src.wellFormed
  | .push r | .pop r | .inc r | .dec r | .input r => regByteOk r
  | .print o => o.wellFormed
  | .jmp _ | .je _ | .jne _ | .call _ | .ret | .nop | .hlt | .int _ => true

end Sys2Proof
end

