-- ==== Sys2Proof/Machine/State.lean ====
section
/-! DEFINITION. The state of the machine: everything 10_state.md gives it, and the model's own fields, each marked.
Plain data, comparable and printable. INVENTORY.md lists every field with its rule and its reset value. -/

namespace Sys2Proof.Machine

/-- Why a run ended (R402). -/
inductive StopReason where
  /-- `running = 0` at the top of a turn. -/
  | halted
  /-- `ip >= CODE_END` at the top of a turn: normal termination, not an error. -/
  | endOfCode
  /-- An opcode byte that `OPC` does not assign. -/
  | decodeFailure
  /-- An encoding the source gives no meaning. -/
  | undefinedOperand (info : UndefinedInfo)
  /-- A host handler ended the run. -/
  | hostExit
  /-- The host's external cap. -/
  | capped
  deriving DecidableEq, Repr

/-- How far the host has brought the machine: created, loaded, in its one run (R450, R452, R454). The model's own
field: the spec orders the host's calls and admits one `load` and one `run()` per machine (assumption 4). -/
inductive Phase where
  | created
  | loaded
  | started
  deriving DecidableEq, Repr

/-- The 256-entry interrupt-vector table (R44): the installed handlers by vector, in rising order of the vectors, each
at most once; a vector that is not listed is empty. The key is a byte, so there are vectors 0 to 255 and no other. -/
abbrev Ivt := List (Byte × Handler)

/-- Why a machine takes no step. None of these is a stop reason of R402: a run that ends, ends in a next state with
its stop reason recorded. -/
inductive Fault where
  /-- Raised by `step` on a machine whose run has ended: "once a run has stopped, the core takes no further step"
  (R402). Safe. -/
  | runStopped (reason : StopReason)
  /-- Raised by INPUT when the host has no line to supply and `INPUT_EOF = stuck`: the core is blocked, not stopped
  (R343, R403). Safe. -/
  | inputBlocked
  /-- Raised by INT when the installed handler never returns: the core is stuck (R403, R420). Safe. -/
  | handlerBlocked
  deriving DecidableEq, Repr

/-- What is refused by name. -/
inductive Refusal where
  /-- Raised by `exec` for an instruction the model has no meaning for. No arm raises it. Safe. -/
  | notModelled (mnemonic : String)
  /-- Raised by `step` on a machine whose run has not begun: there is no loop before `run()` (R452). Safe. -/
  | runNotBegun
  /-- Raised by `create`: the configuration breaks a constraint of R10. Safe. -/
  | invalidConfig
  /-- Raised by `load`: the image does not fit (R450, D28). Safe. -/
  | imageDoesNotFit
  /-- Raised by `load` on a machine already loaded: outside the spec's one load per machine (R452). Safe. -/
  | alreadyLoaded
  /-- Raised by `run` before `load` (R454) or a second time (R452, R423). Safe. -/
  | notReadyToRun
  /-- Raised by `registerInterrupt`: a vector outside 0 to 255 (R421). Safe. -/
  | vectorOutOfRange
  /-- Raised by `registerInterrupt` once `run()` has begun (R421). Safe. -/
  | registrationDuringRun
  deriving DecidableEq, Repr

/-- The machine. -/
structure State where
  /-- The parameters of R9 the machine was created with. No step writes it. The model's own field (assumption 1). -/
  cfg : Config
  /-- The register file (R30). -/
  x : RegFile
  /-- The instruction pointer (R35). -/
  ip : Word
  /-- The flags word: bit 0 is Z, bit 1 is N, bits 31:2 are reserved and read as 0 (R39). -/
  flags : Word
  /-- The running flag (R43). -/
  running : Bool
  /-- The interrupt-vector table (R44). -/
  ivt : Ivt
  /-- `CODE_END`, the latch that `load` writes (R45). -/
  codeEnd : Word
  /-- The memory buffer of `MEM_SIZE` bytes (R46). -/
  mem : Memory
  /-- The diagnostic channel, oldest record first (R47, R404). -/
  diags : List Diagnostic
  /-- The output channel, oldest byte first (R47). -/
  output : List Byte
  /-- The input channel: the lines the host supplies and INPUT has not consumed, the next one first (R47). -/
  input : List Text
  /-- The stop reason, set once, when the run ends (R47, R402). -/
  stopReason : Option StopReason
  /-- The model's own field: see `Phase`. -/
  phase : Phase
  /-- The model's own field: the turns the host's external cap still allows, if it imposes one (R431, assumption 5). -/
  hostCap : Option Nat
  /-- The model's own field: the handler invocations so far, which numbers the free value `Config.hostHandler`
  (assumption 8). -/
  hostCalls : Nat
  deriving DecidableEq, Repr

/-- The state at machine creation under the parameters `cfg` (R49, R450). `ip` and `CODE_END` take their values at
`load`; before it they stand at `CODE_ORIGIN`, as for an empty image (assumption 3). -/
def State.fresh (cfg : Config) : State where
  cfg := cfg
  x := (PerReg.all 0).set cfg.spCode (BitVec.ofNat 32 cfg.memSize)
  ip := BitVec.ofNat 32 cfg.codeOrigin
  flags := 0
  running := false
  ivt := []
  codeEnd := BitVec.ofNat 32 cfg.codeOrigin
  mem := []
  diags := []
  output := []
  input := []
  stopReason := none
  phase := .created
  hostCap := none
  hostCalls := 0

/-- The machine right after creation under the reference parameters. -/
def State.reset : State := State.fresh Config.reference

/-- What a step, an instruction and a host operation answer. -/
abbrev Result := Host.Outcome State Fault Refusal

end Sys2Proof.Machine
end

