-- ==== Sys2Proof/Machine/Ops.lean ====
section
/-! DEFINITION. The shared operations over the state: the memory buffer, the bounded accesses of 20_memory.md, the
byte fetch of 40_fetch_decode.md, diagnostics and stops (R401, R402), the stack, and the interrupt dispatch contract
(R420). Instructions are written over these. -/

namespace Sys2Proof.Machine

/-! ### The memory buffer as plain data -/

/-- What an address that is not listed reads as: zero (R49, D13). -/
def Memory.unlisted : Byte := 0x00

/-- The byte at an address. -/
def Memory.get : Memory → Nat → Byte
  | [], _ => Memory.unlisted
  | (k, b) :: m, a => if a = k then b else Memory.get m a

/-- Lists the byte `b` at address `a`, in its place in the order of the addresses. -/
def Memory.insert : Memory → Nat → Byte → Memory
  | [], a, b => [(a, b)]
  | (k, c) :: m, a, b =>
    if a < k then (a, b) :: (k, c) :: m
    else if a = k then (a, b) :: m
    else (k, c) :: Memory.insert m a b

/-- Writes one byte. Writing what an unlisted address reads as removes the entry, so equal memories are equal
lists. -/
def Memory.put (m : Memory) (a : Nat) (b : Byte) : Memory :=
  if b = Memory.unlisted then m.filter fun cell => cell.1 != a else Memory.insert m a b

/-- Writes a list of bytes at consecutive addresses from `a` up. -/
def Memory.putBytes : Memory → Nat → List Byte → Memory
  | m, _, [] => m
  | m, a, b :: bs => Memory.putBytes (Memory.put m a b) (a + 1) bs

/-- The canonical form: addresses strictly rising, below `size`, and no entry equal to what an unlisted address
reads as. -/
def Memory.wfBelow (size : Nat) : Memory → Bool
  | [] => true
  | (k, b) :: m =>
    k < size && b != Memory.unlisted && m.all (fun cell => k < cell.1) && Memory.wfBelow size m

/-- The canonical form in the buffer of a machine. -/
def State.memWf (s : State) : Bool := Memory.wfBelow s.cfg.memSize s.mem

/-! ### Registers -/

/-- `x[c]`. -/
def State.reg (s : State) (c : RegCode) : Word := s.x.get c

/-- `x[c] <- v`. -/
def State.setReg (s : State) (c : RegCode) (v : Word) : State := { s with x := s.x.set c v }

/-- `x[SP]`: the register of code `SP_CODE` (R32). -/
def State.sp (s : State) : Word := s.reg s.cfg.spCode

/-- `ip <- t`. -/
def State.setIp (s : State) (t : Word) : State := { s with ip := t }

/-! ### Diagnostics, output and stops (R401, R402) -/

/-- `report(D)`: appends a record to the diagnostic channel and changes nothing else. -/
def State.report (s : State) (d : Diagnostic) : State := { s with diags := s.diags ++ [d] }

/-- `out(bytes)`: appends bytes to the output channel. -/
def State.out (s : State) (bytes : List Byte) : State := { s with output := s.output ++ bytes }

/-- `stop(S)`: ends the run. All state survives and stays readable by the host (R435). -/
def State.stop (s : State) (r : StopReason) : State := { s with stopReason := some r }

/-- `raise UndefinedOperand(info)`: the record of R401 row 8 and the stop. It is the one shared operation by which an
instruction ends on an encoding the source gives no meaning (R13, R211). -/
def State.raise (s : State) (info : UndefinedInfo) : State :=
  (s.report (.undefinedOperand info)).stop (.undefinedOperand info)

/-! ### Bounded accesses (R72, R73, R74) -/

/-- The number of bytes of an access. -/
def Width.bytes : Width → Nat
  | .byte => 1
  | .word => 4

/-- An access lies wholly inside the buffer. The sum is exact: it does not wrap (R74). -/
def State.inBuffer (s : State) (a : Word) (n : Nat) : Bool := a.toNat + n ≤ s.cfg.memSize

/-- The byte of the buffer at an address. -/
def State.byteAt (s : State) (a : Nat) : Byte := Memory.get s.mem a

/-- The little-endian value of the bytes from an address up (R71). -/
def State.valueAt (s : State) (w : Width) (a : Nat) : Word :=
  match w with
  | .byte => (s.byteAt a).setWidth 32
  | .word => le32 (s.byteAt a) (s.byteAt (a + 1)) (s.byteAt (a + 2)) (s.byteAt (a + 3))

/-- The low bytes of a value, the least significant first. -/
def valueBytes (w : Width) (v : Word) : List Byte :=
  match w with
  | .byte => [byteOf 0 v]
  | .word => le32Bytes v

/-- `MemRead(a, n)`: the value, or zero and a `MemoryFault` record if the range leaves the buffer (R72). -/
def State.memRead (s : State) (w : Width) (a : Word) : Word × State :=
  if s.inBuffer a (Width.bytes w) then (s.valueAt w a.toNat, s)
  else (0, s.report (.memoryFault .read a (Width.bytes w)))

/-- `MemWrite(a, n, v)`: the write, or no write and a `MemoryFault` record if the range leaves the buffer (R73). -/
def State.memWrite (s : State) (w : Width) (a : Word) (v : Word) : State :=
  if s.inBuffer a (Width.bytes w) then { s with mem := Memory.putBytes s.mem a.toNat (valueBytes w v) }
  else s.report (.memoryFault .write a (Width.bytes w))

/-! ### Fetch (R201, R203) -/

/-- The value of `FetchByte(a)`: the byte of the buffer, or 0x00 outside it. -/
def State.fetchByte (s : State) (a : Word) : Byte :=
  if a.toNat < s.cfg.memSize then s.byteAt a.toNat else 0x00

/-- The bytes that `n` fetches from `a` on give, each address `u32` of the one before plus 1. -/
def State.fetchBytes (s : State) : Nat → Word → List Byte
  | 0, _ => []
  | n + 1, a => s.fetchByte a :: s.fetchBytes n (a + 1)

/-- The effect of consuming the byte at `ip`: a `MemoryFault` record if it lies outside the buffer, and `ip` advanced
by 1. -/
def State.consumeByte (s : State) : State :=
  let s := if s.ip.toNat < s.cfg.memSize then s else s.report (.memoryFault .fetch s.ip 1)
  s.setIp (s.ip + 1)

/-- The effect of consuming the next `n` bytes of the instruction. -/
def State.consume : Nat → State → State
  | 0, s => s
  | n + 1, s => State.consume n s.consumeByte

/-! ### The stack (43_stack.md) -/

/-- Pushes a word: SP down by 4, then the store (R310). The store may be dropped; SP moves all the same. -/
def State.push (s : State) (v : Word) : State :=
  let sp := s.sp - 4
  (s.setReg s.cfg.spCode sp).memWrite .word sp v

/-- Pops a word: the load, then SP up by 4 (R311). The load may give zero; SP moves all the same. -/
def State.pop (s : State) : Word × State :=
  let sp := s.sp
  let (v, s) := s.memRead .word sp
  (v, s.setReg s.cfg.spCode (sp + 4))

/-! ### The interrupt dispatch contract (R420) -/

/-- `IVT[v]`. -/
def Ivt.get : Ivt → Byte → Option Handler
  | [], _ => none
  | (k, h) :: t, v => if v = k then some h else Ivt.get t v

/-- `IVT[v] <- handler`, in its place in the order of the vectors (R421). -/
def Ivt.put : Ivt → Byte → Handler → Ivt
  | [], v, h => [(v, h)]
  | (k, g) :: t, v, h =>
    if v < k then (v, h) :: (k, g) :: t
    else if v = k then (v, h) :: t
    else (k, g) :: Ivt.put t v h

/-- The canonical form of the table: vectors strictly rising. -/
def Ivt.wf : Ivt → Bool
  | [] => true
  | (k, _) :: t => t.all (fun e => k < e.1) && Ivt.wf t

/-- What a handler sees of the machine. -/
def State.view (s : State) : HandlerView := ⟨s.x, s.mem, s.output, s.input, s.diags⟩

/-- What the installed handler does at this invocation. -/
def State.handlerRun (s : State) (h : Handler) : HandlerRun :=
  match h with
  | .script run => run
  | .host id => Config.hostHandler id s.hostCalls s.view

/-- One thing a handler does. Its memory accesses go through `MemRead` and `MemWrite`, so an out-of-range one reports
`MemoryFault` (R420). -/
def State.handlerAct (s : State) : HandlerAct → State
  | .setReg c v => s.setReg c v
  | .load w a => (s.memRead w a).2
  | .store w a v => s.memWrite w a v
  | .print bytes => s.out bytes

/-- The things a handler does, in order. -/
def State.handlerActs (s : State) (acts : List HandlerAct) : State := acts.foldl State.handlerAct s

/-- The machine after everything one handler invocation does, with the invocation counted. -/
def State.afterHandler (s : State) (run : HandlerRun) : State :=
  { s with hostCalls := s.hostCalls + 1 }.handlerActs run.acts

/-- How a handler's outcome ends the INT step (R420): the core goes on, the run ends with HostExit, or the core is
stuck. -/
def State.handlerOutcome (s : State) : HandlerEnd → Result
  | .ret => .next s
  | .exit => .next (s.stop .hostExit)
  | .blocks => .fault .handlerBlocked

/-- `HostCall(v)`: entry saves nothing and changes no mode (R422); the handler runs to completion inside the step; its
return restores nothing, because nothing was saved (R423). -/
def State.hostCall (s : State) (h : Handler) : Result :=
  (s.afterHandler (s.handlerRun h)).handlerOutcome (s.handlerRun h).ending

end Sys2Proof.Machine
end

