-- ==== Sys2Proof/Machine/Operands.lean ====
section
/-! DEFINITION. The operand unpacker (40_fetch_decode.md R210 to R215): the four operand variants, the raw register
field, and the read and the write of an operand.

Each `with…` operation does one stage of an instruction and hands what it got to the rest of the instruction; a stage
that raises ends the instruction there, and nothing after it happens (R211, R405). -/

namespace Sys2Proof.Machine

/-- A decoded operand (R109, R210). -/
inductive Operand where
  | unknown
  | reg (c : RegCode)
  | imm (v : Word)
  | mem (a : Word)
  deriving DecidableEq, Repr

/-- The tag byte of an operand (R109). -/
def Operand.tag : Operand → Byte
  | .unknown => 0x00
  | .reg _ => 0x01
  | .imm _ => 0x02
  | .mem _ => 0x03

/-- The register a raw register byte names, or the record of a bad one under `BAD_REG = fault` (R116, R215). -/
def decodeReg (cfg : Config) (c : Byte) : Except UndefinedInfo RegCode :=
  match RegCode.ofByte? c with
  | some r => .ok r
  | none =>
    match cfg.badReg with
    | .fault => .error (.regCode c)

/-- `DecodeOperand()` on the 5 bytes of a tagged operand: it reads no register and no memory. Bytes 1 to 3 of a
Register payload and the payload of an Unknown operand are ignored (R117). -/
def unpack (cfg : Config) (o : TaggedOperand) : Except UndefinedInfo Operand :=
  if o.tag = 0x00#8 then .ok .unknown
  else if o.tag = 0x01#8 then (decodeReg cfg (byteOf 0 o.payload)).map Operand.reg
  else if o.tag = 0x02#8 then .ok (.imm o.payload)
  else if o.tag = 0x03#8 then .ok (.mem o.payload)
  else
    match cfg.badTag with
    | .fault => .error (.tag o.tag)
    | .asUnknown => .ok .unknown

/-- The size of an encoded operand in bytes (R108). -/
def operandBytes : Nat := 5

/-- Consumes and unpacks one tagged operand. -/
def State.withOperand (s : State) (o : TaggedOperand) (rest : Operand → State → Result) : Result :=
  let s := s.consume operandBytes
  match unpack s.cfg o with
  | .ok op => rest op s
  | .error info => .next (s.raise info)

/-- Consumes and decodes one raw register byte: `DecodeReg()` (R215). -/
def State.withReg (s : State) (c : Byte) (rest : RegCode → State → Result) : Result :=
  let s := s.consume 1
  match decodeReg s.cfg c with
  | .ok r => rest r s
  | .error info => .next (s.raise info)

/-- `ReadOperand(o)`: the 32-bit value of an operand (R212). -/
def State.withValue (s : State) (o : Operand) (rest : Word → State → Result) : Result :=
  match o with
  | .reg c => rest (s.reg c) s
  | .imm v => rest v s
  | .mem a =>
    let (v, s) := s.memRead .word a
    rest v s
  | .unknown =>
    match s.cfg.unknownSrc with
    | .zero => rest 0 s
    | .fault => .next (s.raise (.tag Operand.unknown.tag))

/-- A write to an Immediate or Unknown destination (R213, R214). -/
def State.writeNonwritable (s : State) (tag : Byte) : State :=
  match s.cfg.destNonwritable with
  | .drop => s.report (.nonWritableDestination tag)
  | .fault => s.raise (.destTag tag)

/-- `WriteOperand(o, v)` (R213). -/
def State.writeOperand (s : State) (o : Operand) (v : Word) : State :=
  match o with
  | .reg c => s.setReg c v
  | .mem a => s.memWrite .word a v
  | .imm _ => s.writeNonwritable o.tag
  | .unknown => s.writeNonwritable o.tag

end Sys2Proof.Machine
end

