-- ==== Sys2Proof/Machine/Flags.lean ====
section
/-! DEFINITION. The flags word (10_state.md R39 to R42) and the one computation of flags the spec has, CMP's (R248). -/

namespace Sys2Proof.Machine

/-- Z, the equal flag: bit 0 (R39). -/
def State.z (s : State) : Bool := s.flags.getLsbD 0

/-- N, the negative flag: bit 1 (R39). -/
def State.n (s : State) : Bool := s.flags.getLsbD 1

/-- The whole flags word with the given Z and N; the reserved bits are 0 (R39). -/
def flagsWord (z n : Bool) : Word := (if z then 1 else 0) ||| (if n then 2 else 0)

/-- The exact integer difference of two unsigned values (R248, D6). -/
def exactDiff (a b : Word) : Int := (a.toNat : Int) - (b.toNat : Int)

/-- The flags of comparing `a` with `b`: Z when the difference is 0, N when it is negative (R248). -/
def compareFlags (a b : Word) : Word := flagsWord (exactDiff a b == 0) (exactDiff a b < 0)

/-- CMP overwrites the flags in full: it does not merge (R40). -/
def State.setFlags (s : State) (f : Word) : State := { s with flags := f }

end Sys2Proof.Machine
end

