-- ==== Sys2Proof/Machine/Control.lean ====
section
/-! DEFINITION. Control transfer (42_control.md): JMP, JE, JNE, CALL, RET. Targets are absolute, and none is checked
when the instruction executes. -/

namespace Sys2Proof.Machine

/-- The size of an address field in bytes (R105). -/
def addressBytes : Nat := 4

/-- JMP (R280). -/
def execJmp (target : Word) (s : State) : Result := .next ((s.consume addressBytes).setIp target)

/-- JE (R281): `ip` advances past the address field first, then is overwritten if Z is set. -/
def execJe (target : Word) (s : State) : Result :=
  let s := s.consume addressBytes
  .next (if s.z then s.setIp target else s)

/-- JNE (R282): taken if Z is clear. -/
def execJne (target : Word) (s : State) : Result :=
  let s := s.consume addressBytes
  .next (if s.z then s else s.setIp target)

/-- CALL (R283): pushes the address right after the address field, then jumps; the jump happens even if the push is
dropped. -/
def execCall (target : Word) (s : State) : Result :=
  let s := s.consume addressBytes
  .next ((s.push s.ip).setIp target)

/-- RET (R284): pops the top stack word into `ip`. -/
def execRet (s : State) : Result :=
  let (v, s) := s.pop
  .next (s.setIp v)

end Sys2Proof.Machine
end

