-- ==== Sys2Proof/Machine/DataArith.lean ====
section
/-! DEFINITION. Data movement, arithmetic, logic and compare (41_data_arith.md): MOV, ADD, SUB, AND, OR, XOR, CMP,
INC, DEC.

Every meaning starts after dispatch: `ip` is the opcode address + 1 (R201). -/

namespace Sys2Proof.Machine

/-- The shape of ADD, SUB, AND, OR and XOR: decode both operands, read the destination, read the source, compute,
write the destination (R216). -/
def binaryOp (f : Word → Word → Word) (d src : TaggedOperand) (s : State) : Result :=
  s.withOperand d fun od s =>
  s.withOperand src fun os s =>
  s.withValue od fun a s =>
  s.withValue os fun b s =>
  .next (s.writeOperand od (f a b))

/-- The shape of INC and DEC: one raw register byte, one register changed (R246, R247). -/
def registerOp (f : Word → Word) (r : Byte) (s : State) : Result :=
  s.withReg r fun c s => .next (s.setReg c (f (s.reg c)))

/-- MOV (R240): the destination's prior value is not read. -/
def execMov (d src : TaggedOperand) (s : State) : Result :=
  s.withOperand d fun od s =>
  s.withOperand src fun os s =>
  s.withValue os fun v s =>
  .next (s.writeOperand od v)

/-- ADD (R241): modulo `2^32`, no carry, no flag. -/
def execAdd (d src : TaggedOperand) (s : State) : Result := binaryOp (fun a b => a + b) d src s

/-- SUB (R242): modulo `2^32`, no borrow, no flag. -/
def execSub (d src : TaggedOperand) (s : State) : Result := binaryOp (fun a b => a - b) d src s

/-- AND (R243). -/
def execAnd (d src : TaggedOperand) (s : State) : Result := binaryOp (fun a b => a &&& b) d src s

/-- OR (R244). -/
def execOr (d src : TaggedOperand) (s : State) : Result := binaryOp (fun a b => a ||| b) d src s

/-- XOR (R245). -/
def execXor (d src : TaggedOperand) (s : State) : Result := binaryOp (fun a b => a ^^^ b) d src s

/-- CMP (R248): reads both operands, writes no operand, overwrites the flags. -/
def execCmp (d src : TaggedOperand) (s : State) : Result :=
  s.withOperand d fun od s =>
  s.withOperand src fun os s =>
  s.withValue od fun a s =>
  s.withValue os fun b s =>
  .next (s.setFlags (compareFlags a b))

/-- INC (R246): modulo `2^32`, no flag. -/
def execInc (r : Byte) (s : State) : Result := registerOp (fun v => v + 1) r s

/-- DEC (R247): modulo `2^32`, no flag. -/
def execDec (r : Byte) (s : State) : Result := registerOp (fun v => v - 1) r s

end Sys2Proof.Machine
end

