-- ==== Sys2Proof/Machine/Stack.lean ====
section
/-! DEFINITION. Stack instructions (43_stack.md): PUSH, POP. -/

namespace Sys2Proof.Machine

/-- PUSH (R310): the register is read before SP moves. -/
def execPush (r : Byte) (s : State) : Result :=
  s.withReg r fun c s => .next (s.push (s.reg c))

/-- POP (R311): the register is written after SP moves, so POP of the stack pointer leaves it at the popped word. -/
def execPop (r : Byte) (s : State) : Result :=
  s.withReg r fun c s =>
  let (v, s) := s.pop
  .next (s.setReg c v)

end Sys2Proof.Machine
end

