-- ==== Sys2Proof/Machine/Text.lean ====
section
/-! DEFINITION. Text: the character classes, whitespace, number and string conversions that the assembler
(30_encoding.md R131 to R137), INPUT (R343) and PRINT (R344) share. -/

namespace Sys2Proof.Machine

/-- Whitespace: space, tab, line feed, vertical tab, form feed, carriage return. The spec does not list it
(assumption 10). -/
def isSpace (c : Char) : Bool := c = ' ' || (9 ≤ c.toNat && c.toNat ≤ 13)

/-- A decimal digit. -/
def isDigit (c : Char) : Bool := 48 ≤ c.toNat && c.toNat ≤ 57

/-- An ASCII upper-case letter. -/
def isUpper (c : Char) : Bool := 65 ≤ c.toNat && c.toNat ≤ 90

/-- An ASCII lower-case letter. -/
def isLower (c : Char) : Bool := 97 ≤ c.toNat && c.toNat ≤ 122

/-- A hexadecimal digit. -/
def isHexDigit (c : Char) : Bool :=
  isDigit c || (65 ≤ c.toNat && c.toNat ≤ 70) || (97 ≤ c.toNat && c.toNat ≤ 102)

/-- `lower` of one character: ASCII letters only (R15). -/
def lowerChar (c : Char) : Char := if isUpper c then Char.ofNat (c.toNat + 32) else c

/-- `lower(s)`. -/
def lower (t : Text) : Text := t.map lowerChar

/-- `strip(s)`: without leading and trailing whitespace (R15). -/
def strip (t : Text) : Text := ((t.dropWhile isSpace).reverse.dropWhile isSpace).reverse

/-- The number of a string of decimal digits. -/
def decimalValue (ds : Text) : Nat := ds.foldl (fun n c => 10 * n + (c.toNat - 48)) 0

/-- The number of a hexadecimal digit. -/
def hexDigitValue (c : Char) : Nat :=
  if isDigit c then c.toNat - 48 else if isUpper c then c.toNat - 55 else c.toNat - 87

/-- The number of a string of hexadecimal digits. -/
def hexValue (ds : Text) : Nat := ds.foldl (fun n c => 16 * n + hexDigitValue c) 0

/-- One or more decimal digits. -/
def isDecimal (t : Text) : Bool := !t.isEmpty && t.all isDigit

/-- `is_int(t)` and `int(t)` in one: the value of an integer literal, `-?[0-9]+` or `0[xX][0-9A-Fa-f]+`, or none
(R136). -/
def intLiteral? (t : Text) : Option Int :=
  match t with
  | '-' :: ds => if isDecimal ds then some (-(decimalValue ds : Int)) else none
  | '0' :: 'x' :: hs | '0' :: 'X' :: hs => if !hs.isEmpty && hs.all isHexDigit then some (hexValue hs) else none
  | ds => if isDecimal ds then some (decimalValue ds) else none

/-- The reference `PARSE_INPUT` (R343, D25): surrounding whitespace, an optional sign, one or more decimal digits. -/
def parseDecimal (line : Text) : Option Int :=
  match strip line with
  | '+' :: ds => if isDecimal ds then some (decimalValue ds) else none
  | '-' :: ds => if isDecimal ds then some (-(decimalValue ds : Int)) else none
  | ds => if isDecimal ds then some (decimalValue ds) else none

/-- `PARSE_INPUT(line)`. -/
def parseInput (cfg : Config) (line : Text) : Option Int :=
  match cfg.parseInput with
  | .decimal => parseDecimal line
  | .hostDefined k => Config.hostParser k line

/-- The decimal digits of a number, the most significant first, at most `fuel` of them. -/
def decimalDigits : Nat → Nat → List Byte
  | 0, _ => []
  | fuel + 1, n =>
    if n < 10 then [BitVec.ofNat 8 (48 + n)] else decimalDigits fuel (n / 10) ++ [BitVec.ofNat 8 (48 + n % 10)]

/-- `ascii_decimal(v)`: unsigned decimal without leading zeros (R344); a 32-bit value has at most 10 digits. -/
def asciiDecimal (v : Word) : List Byte := decimalDigits 10 v.toNat

/-- The UTF-8 bytes of a character (R136, D41). -/
def utf8 (c : Char) : List Byte :=
  let n := c.toNat
  if n < 0x80 then [BitVec.ofNat 8 n]
  else if n < 0x800 then [BitVec.ofNat 8 (0xC0 + n / 64), BitVec.ofNat 8 (0x80 + n % 64)]
  else if n < 0x10000 then
    [BitVec.ofNat 8 (0xE0 + n / 4096), BitVec.ofNat 8 (0x80 + n / 64 % 64), BitVec.ofNat 8 (0x80 + n % 64)]
  else
    [BitVec.ofNat 8 (0xF0 + n / 262144), BitVec.ofNat 8 (0x80 + n / 4096 % 64), BitVec.ofNat 8 (0x80 + n / 64 % 64),
      BitVec.ofNat 8 (0x80 + n % 64)]

/-- `unescape(s)`: the escapes for line feed, tab and NUL are one byte each; any other backslash stands for itself
(R136). -/
def unescape : Text → List Byte
  | [] => []
  | '\\' :: 'n' :: t => 0x0A :: unescape t
  | '\\' :: 't' :: t => 0x09 :: unescape t
  | '\\' :: '0' :: t => 0x00 :: unescape t
  | c :: t => utf8 c ++ unescape t

end Sys2Proof.Machine
end

