-- ==== Sys2Proof/Machine/SystemIo.lean ====
section
/-! DEFINITION. Interrupt, halt, no-op and I/O instructions (44_system_io.md): INT, HLT, NOP, INPUT, PRINT. -/

namespace Sys2Proof.Machine

/-- INT (R340): every vector byte is legal; an empty vector is reported and the run goes on. -/
def execInt (vector : Byte) (s : State) : Result :=
  let s := s.consume 1
  match Ivt.get s.ivt vector with
  | none => .next (s.report (.unhandledInterrupt vector))
  | some h => s.hostCall h

/-- HLT (R341): the run stops with Halted at the top of the next turn. -/
def execHlt (s : State) : Result := .next { s with running := false }

/-- NOP (R342): no effect; `ip` has already advanced. -/
def execNop (s : State) : Result := .next s

/-- INPUT's result: the parsed integer modulo `2^32`, or zero and an `InputFormatError` record (R343). -/
def State.inputValue (s : State) (c : RegCode) (line : Text) : State :=
  match parseInput s.cfg line with
  | some n => s.setReg c (u32 n)
  | none => (s.setReg c 0).report (.inputFormatError line)

/-- INPUT with no line to supply, under `INPUT_EOF` (R343, R403). Under `zero` the record holds an empty line
(assumption 11). -/
def State.inputAtEnd (s : State) (c : RegCode) : Result :=
  match s.cfg.inputEof with
  | .stuck => .fault .inputBlocked
  | .zero => .next ((s.setReg c 0).report (.inputFormatError []))

/-- INPUT (R343): consumes one line of the input channel. -/
def execInput (r : Byte) (s : State) : Result :=
  s.withReg r fun c s =>
  match s.input with
  | [] => s.inputAtEnd c
  | line :: rest => .next ({ s with input := rest }.inputValue c line)

/-- The bytes from address `a` up to the first 0x00, at most `n` of them. -/
def State.stringFrom (s : State) : Nat → Nat → List Byte
  | 0, _ => []
  | n + 1, a => if s.byteAt a = 0x00#8 then [] else s.byteAt a :: s.stringFrom n (a + 1)

/-- The string at an address: up to the first 0x00 or the end of the buffer; nothing from an address at or beyond the
end (R344). -/
def State.stringAt (s : State) (a : Word) : List Byte := s.stringFrom (s.cfg.memSize - a.toNat) a.toNat

/-- The text of a number: decimal digits, then one space (R344). -/
def numberText (v : Word) : List Byte := asciiDecimal v ++ [0x20]

/-- PRINT (R344): an immediate is the address of a string; any other operand is a number. -/
def execPrint (o : TaggedOperand) (s : State) : Result :=
  s.withOperand o fun op s =>
  match op with
  | .imm a => .next (s.out (s.stringAt a))
  | .reg _ | .mem _ | .unknown => s.withValue op fun v s => .next (s.out (numberText v))

end Sys2Proof.Machine
end

