-- ==== Sys2Proof/Machine/Dispatch.lean ====
section
/-! DEFINITION. Opcode-to-handler dispatch: one arm per instruction (R111). -/

namespace Sys2Proof.Machine

def exec (i : Instr) (s : State) : Host.Outcome State Fault Refusal :=
  match i with
  | .mov d src => Sys2Proof.Machine.execMov d src s
  | .add d src => Sys2Proof.Machine.execAdd d src s
  | .sub d src => Sys2Proof.Machine.execSub d src s
  | .cmp d src => Sys2Proof.Machine.execCmp d src s
  | .jmp target => Sys2Proof.Machine.execJmp target s
  | .je target => Sys2Proof.Machine.execJe target s
  | .jne target => Sys2Proof.Machine.execJne target s
  | .call target => Sys2Proof.Machine.execCall target s
  | .ret => Sys2Proof.Machine.execRet s
  | .push r => Sys2Proof.Machine.execPush r s
  | .pop r => Sys2Proof.Machine.execPop r s
  | .inc r => Sys2Proof.Machine.execInc r s
  | .dec r => Sys2Proof.Machine.execDec r s
  | .int vector => Sys2Proof.Machine.execInt vector s
  | .nop => Sys2Proof.Machine.execNop s
  | .hlt => Sys2Proof.Machine.execHlt s
  | .and d src => Sys2Proof.Machine.execAnd d src s
  | .or d src => Sys2Proof.Machine.execOr d src s
  | .xor d src => Sys2Proof.Machine.execXor d src s
  | .input r => Sys2Proof.Machine.execInput r s
  | .print o => Sys2Proof.Machine.execPrint o s

end Sys2Proof.Machine
end

