-- ==== Sys2Proof/Machine/Step.lean ====
section
/-! DEFINITION. One turn of the run loop (40_fetch_decode.md R200), and how a program's bytes are placed before it. -/

namespace Sys2Proof.Machine

/-- The bytes from `ip` on that the decoder may need: those of the longest instruction. A byte outside the buffer is
0x00 (R203), and one at or beyond `CODE_END` is fetched all the same (R204). -/
def State.instrBytes (s : State) : List Byte := s.fetchBytes maxInstrLength s.ip

/-- One turn of the host's external cap is used up (R431). -/
def State.useTurn (s : State) : State := { s with hostCap := s.hostCap.map (· - 1) }

/-- The state in which an instruction's rule begins: the opcode byte is consumed (R201). -/
def State.afterOpcode (s : State) : State := s.useTurn.consumeByte

/-- Dispatch of the fetched opcode: the instruction's rule, or the DecodeFailure path (R200, R202). -/
def State.dispatch (s : State) : Result :=
  match decode s.cfg.opc s.instrBytes with
  | .ok (i, _) => exec i s.afterOpcode
  | .error _ =>
    .next ((s.afterOpcode.report (.decodeFailure (s.fetchByte s.ip) s.ip)).stop .decodeFailure)

/-- One turn of `run()`. The running test comes first, then the EndOfCode test, then the opcode fetch (R200, R411).
The host's cap may end the run between two turns, so it is tested before them (R431). A machine whose run has ended
takes no further step (R402); one whose run has not begun is in no loop (R452). -/
def step (s : State) : Host.Outcome State Fault Refusal :=
  match s.stopReason, s.phase with
  | some r, _ => .fault (.runStopped r)
  | none, .created => .refused .runNotBegun
  | none, .loaded => .refused .runNotBegun
  | none, .started =>
    if s.hostCap = some 0 then .next (s.stop .capped)
    else if !s.running then .next (s.stop .halted)
    else if s.codeEnd ≤ s.ip then .next (s.stop .endOfCode)
    else s.dispatch

/-- The machine with one instruction placed where `step` fetches next: its bytes (the bits from `nbits` on zero) at
`ip` (as far as the buffer goes), `CODE_END` past them if it is not there already, and a run that has begun, is running and has not stopped. It
stands for the host's `load` of those bytes and `run()` (assumption 3). -/
def State.withFetchWord (s : State) (nbits w : Nat) : State :=
  { s with
    mem := Memory.putBytes s.mem s.ip.toNat ((tableBytes nbits w).take (s.cfg.memSize - s.ip.toNat))
    codeEnd := BitVec.ofNat 32 (max s.codeEnd.toNat (s.ip.toNat + maxInstrLength))
    running := true
    stopReason := none
    phase := .started
    hostCap := none }

end Sys2Proof.Machine
end

