-- ==== Sys2Proof/Machine/Lexer.lean ====
section
/-! DEFINITION. The assembler's source syntax (30_encoding.md R131 to R139): lines, label prefixes, line kinds,
tokens, aliases, mnemonic and register names, comma lists and string literals. -/

namespace Sys2Proof.Machine

/-! ### Lines (R131) -/

/-- The lines of a text, cut at each line feed. A carriage return before one is whitespace, which `strip` removes
(assumption 10). -/
def splitLines : Text → List Text
  | [] => [[]]
  | c :: cs =>
    match splitLines cs with
    | [] => [[c]]
    | l :: ls => if c = '\n' then [] :: l :: ls else (c :: l) :: ls

/-- A line without its comment: everything from the first `;` on, inside a string too (D42). -/
def dropComment (line : Text) : Text := line.takeWhile fun c => c != ';'

/-- `L[0..n-1]`: the lines all four passes walk, comments and blank lines removed. -/
def sourceLines (source : Text) : List Text :=
  ((splitLines source).map fun l => strip (dropComment l)).filter fun l => !l.isEmpty

/-! ### Tokens and identifiers (R132, R136) -/

/-- The first character of an identifier: a letter, `_` or `.`. -/
def isIdentStart (c : Char) : Bool := isUpper c || isLower c || c = '_' || c = '.'

/-- A further character of an identifier. -/
def isIdentChar (c : Char) : Bool := isIdentStart c || isDigit c

/-- The label prefix of a line and the rest of it, stripped: an identifier immediately followed by `:` (R132). -/
def splitLabel (line : Text) : Option Text × Text :=
  let name := line.takeWhile isIdentChar
  match name, line.drop name.length with
  | c :: _, ':' :: rest => if isIdentStart c then (some name, strip rest) else (none, line)
  | _, _ => (none, line)

/-- The first token of a text without leading whitespace: a maximal run of characters that are not whitespace
(R15). -/
def firstToken (t : Text) : Text := t.takeWhile fun c => !isSpace c

/-- What follows the first token, stripped. -/
def afterToken (t : Text) : Text := strip (t.dropWhile fun c => !isSpace c)

/-! ### Aliases, mnemonics and registers (R134, R135) -/

/-- `canon(t)`: the alias table's canonical name for a keyword, compared without regard to case, or the keyword (R134).
DESIGN CHOICE (assumption 23): of two entries whose keywords are equal without regard to case, the first listed wins. -/
def canon (cfg : Config) (t : Text) : Text :=
  match cfg.aliases.find? fun a => lower a.1 == lower t with
  | some a => a.2
  | none => t

/-- The canonical name of each mnemonic (R3). -/
def Mnemonic.name : Mnemonic → Text
  | .mov => "MOV".toList
  | .add => "ADD".toList
  | .sub => "SUB".toList
  | .cmp => "CMP".toList
  | .jmp => "JMP".toList
  | .je => "JE".toList
  | .jne => "JNE".toList
  | .call => "CALL".toList
  | .ret => "RET".toList
  | .push => "PUSH".toList
  | .pop => "POP".toList
  | .inc => "INC".toList
  | .dec => "DEC".toList
  | .int => "INT".toList
  | .nop => "NOP".toList
  | .hlt => "HLT".toList
  | .and => "AND".toList
  | .or => "OR".toList
  | .xor => "XOR".toList
  | .input => "INPUT".toList
  | .print => "PRINT".toList

/-- Mnemonic-to-opcode dispatch on the assembler side: the mnemonic a token names (R112, R135). -/
def mnemonicNamed (cfg : Config) (t : Text) : Option Mnemonic :=
  Mnemonic.all.find? fun m => lower (canon cfg t) == lower (Mnemonic.name m)

/-- The register an operand text names (R135). -/
def registerNamed (cfg : Config) (t : Text) : Option RegCode :=
  RegCode.all.find? fun c => lower t == lower (cfg.regNames.get c)

/-! ### Quotes and commas (R136, R137) -/

/-- A quote character opens a string literal. -/
def isQuote (c : Char) : Bool := c = '"' || c = '\''

/-- A text is a string literal: it begins with a quote. -/
def isStringLiteral : Text → Bool
  | c :: _ => isQuote c
  | [] => false

/-- The inside of a string literal: up to the next same quote, or to the end of the token (R136). DESIGN CHOICE
(assumption 24): the token is the whole piece between commas, spaces included, and what follows the closing quote is
dropped. -/
def inner : Text → Text
  | q :: t => t.takeWhile fun c => c != q
  | [] => []

/-- Whether the scan is inside a quoted string after the character `c`, and of which quote. -/
def quoteAfter : Option Char → Char → Option Char
  | none, c => if isQuote c then some c else none
  | some q, c => if c = q then none else some q

/-- The pieces of a text cut at each comma met outside quotes, before stripping (R137). DESIGN CHOICE (assumption 24): a
quote that is not closed keeps the scan inside quotes to the end of the text, so no later comma cuts, and a quote opens
wherever it stands outside quotes, not only at the start of a piece. -/
def commaPieces : Option Char → Text → List Text
  | _, [] => [[]]
  | q, c :: cs =>
    match commaPieces (quoteAfter q c) cs with
    | [] => [[c]]
    | p :: ps => if c = ',' ∧ q = none then [] :: p :: ps else (c :: p) :: ps

/-- `split_commas(s)`: each piece stripped, empty pieces dropped (R137). -/
def splitCommas (s : Text) : List Text := ((commaPieces none s).map strip).filter fun p => !p.isEmpty

/-! ### The kind of a line (R133) -/

/-- What the rest of a line, after its label prefix, is. -/
inductive LineKind where
  | empty
  /-- A `defbyte` line with its items text. -/
  | data (items : Text)
  /-- An `equ` line with its name and its value text. -/
  | const (name value : Text)
  /-- An instruction line with its mnemonic token and its operands text. -/
  | instr (token operands : Text)
  deriving DecidableEq, Repr

/-- `kind(r)`, decided in the order of R133. -/
def lineKind (cfg : Config) (r : Text) : LineKind :=
  if r = [] then .empty
  else if lower (canon cfg (firstToken r)) = "defbyte".toList then .data (afterToken r)
  else if lower (firstToken (afterToken r)) = "equ".toList then .const (firstToken r) (afterToken (afterToken r))
  else .instr (firstToken r) (afterToken r)

/-- A line as all four passes see it: its label, if any, and its kind. -/
structure Line where
  label : Option Text
  kind : LineKind
  deriving DecidableEq, Repr

/-- The label and the kind of a line. -/
def parseLine (cfg : Config) (line : Text) : Line :=
  ⟨(splitLabel line).1, lineKind cfg (splitLabel line).2⟩

/-- The parsed lines of a source text. -/
def parseSource (cfg : Config) (source : Text) : List Line := (sourceLines source).map (parseLine cfg)

end Sys2Proof.Machine
end

