-- ==== Sys2Proof/Machine/Labels.lean ====
section
/-! DEFINITION. The label-table engine (30_encoding.md R145 to R152): passes 1 and 2. -/

namespace Sys2Proof.Machine

/-! ### The label table (R145, R152) -/

/-- `T`: code labels, data labels and constants in one namespace (R145). Each name is listed once. -/
abbrev Labels := List (Text × Word)

/-- `T[name]`. -/
def Labels.find : Labels → Text → Option Word
  | [], _ => none
  | (k, v) :: t, name => if name = k then some v else Labels.find t name

/-- `T[name] <- v`: the last write wins (R152). -/
def Labels.bind : Labels → Text → Word → Labels
  | [], name, v => [(name, v)]
  | (k, w) :: t, name, v => if name = k then (name, v) :: t else (k, w) :: Labels.bind t name v

/-- Binds an address to a label, if the line has one. -/
def Labels.bindLabel (t : Labels) (label : Option Text) (addr : Nat) : Labels :=
  match label with
  | some name => Labels.bind t name (BitVec.ofNat 32 addr)
  | none => t

/-! ### What a line adds -/

/-- `count_items`: one byte for each item, whatever its length (R146). -/
def countItems (items : Text) : Nat := (splitCommas items).length

/-- `decl_size` (R148). -/
def declSize (cfg : Config) : Mnemonic → Nat
  | .print => cfg.printDeclSize
  | m => m.form.length

/-- The declared size of an instruction line: 0 for a token that names no mnemonic (R148, D33). -/
def tokenSize (cfg : Config) (token : Text) : Nat :=
  match mnemonicNamed cfg token with
  | some m => declSize cfg m
  | none => 0

/-- How far a line moves the code cursor. -/
def Line.codeSize (cfg : Config) (l : Line) : Nat :=
  match l.kind with
  | .instr token _ => tokenSize cfg token
  | .empty | .data _ | .const _ _ => 0

/-- How far a line moves the data cursor. -/
def Line.dataSize (l : Line) : Nat :=
  match l.kind with
  | .data items => countItems items
  | .empty | .const _ _ | .instr _ _ => 0

/-- `int_or_0`. -/
def intOrZero (t : Text) : Int := (intLiteral? t).getD 0

/-- The line is a `defbyte` line. -/
def Line.isData (l : Line) : Bool :=
  match l.kind with
  | .data _ => true
  | .empty | .const _ _ | .instr _ _ => false

/-- A label prefix on this line names a data address: the line is a `defbyte` line, or it holds only the label and
the next line is one (R146, R147, D32). -/
def Line.bindsData (l : Line) (next : Option Line) : Bool :=
  l.isData || (l.kind == .empty && (next.map Line.isData).getD false)

/-! ### Passes 1 and 2 -/

/-- The running values of pass 1: the code cursor, the data cursor and the table. -/
structure Scan where
  cc : Nat
  dc : Nat
  labels : Labels
  deriving DecidableEq, Repr

/-- Pass 1 on one line (R146). -/
def Scan.line (cfg : Config) (p : Scan) (l : Line) (next : Option Line) : Scan :=
  let bound := Labels.bindLabel p.labels l.label (if l.bindsData next then p.dc else p.cc)
  { cc := p.cc + l.codeSize cfg
    dc := p.dc + l.dataSize
    labels :=
      match l.kind with
      | .const name value => Labels.bind bound name (u32 (intOrZero value))
      | .empty | .data _ | .instr _ _ => bound }

/-- Pass 1, the address pre-scan (R146). -/
def pass1From (cfg : Config) : Scan → List Line → Scan
  | p, [] => p
  | p, l :: ls => pass1From cfg (p.line cfg l ls.head?) ls

/-- Pass 1 from the origins and an empty table. -/
def pass1 (cfg : Config) (ls : List Line) : Scan := pass1From cfg ⟨cfg.codeOrigin, cfg.dataOrigin, []⟩ ls

/-- Pass 2 on one line: rebinds a data label (R149). -/
def rebindLine (dc : Nat) (t : Labels) (l : Line) (next : Option Line) : Labels :=
  if l.bindsData next then Labels.bindLabel t l.label dc else t

/-- Pass 2, the data-label re-pass: the data cursor again, as in pass 1 (R149). -/
def pass2From : Nat → Labels → List Line → Nat × Labels
  | dc, t, [] => (dc, t)
  | dc, t, l :: ls => pass2From (dc + l.dataSize) (rebindLine dc t l ls.head?) ls

/-- Pass 2 from the data origin. -/
def pass2 (cfg : Config) (ls : List Line) (t : Labels) : Nat × Labels := pass2From cfg.dataOrigin t ls

/-- The label table after both passes. -/
def labelTable (cfg : Config) (ls : List Line) : Labels := (pass2 cfg ls (pass1 cfg ls).labels).2

end Sys2Proof.Machine
end

