-- ==== Sys2Proof/Machine/Assemble.lean ====
section
/-! DEFINITION. The assembler's emission (30_encoding.md R155 to R166): operand resolution, pass 3 (code and the string
pool), pass 4 (data), and `assemble`. -/

namespace Sys2Proof.Machine

/-! ### Operand resolution (R156) -/

/-- `enc(o)` as a tagged operand: the tag and payload R109 gives an operand. -/
def regOperand (c : RegCode) : TaggedOperand := ⟨0x01, c.toByte.setWidth 32⟩

/-- The Immediate operand of a value. -/
def immOperand (v : Word) : TaggedOperand := ⟨0x02, v⟩

/-- The Memory operand of an address. -/
def memOperand (a : Word) : TaggedOperand := ⟨0x03, a⟩

/-- The Unknown operand. -/
def unknownOperand : TaggedOperand := ⟨0x00, 0⟩

/-- The inside of a bracketed text, stripped, if it is one. -/
def bracketed? (t : Text) : Option Text :=
  match t with
  | '[' :: u => if u.getLast? = some ']' then some (strip u.dropLast) else none
  | _ => none

/-- The value of an integer literal or a label. -/
def constant? (t : Labels) (u : Text) : Option Word :=
  match intLiteral? u with
  | some n => some (u32 n)
  | none => Labels.find t u

/-- `resolve(t)`: the first case of R156 that applies. An operand that resolves to nothing is Unknown, silently. -/
def resolve (cfg : Config) (labels : Labels) (t : Text) : TaggedOperand :=
  if t = [] then unknownOperand
  else
    match registerNamed cfg t with
    | some c => regOperand c
    | none =>
      match constant? labels t with
      | some v => immOperand v
      | none =>
        match (bracketed? t).bind (constant? labels) with
        | some a => memOperand a
        | none => unknownOperand

/-- The operand text at a position of an operand list; a missing one is empty and resolves to Unknown (D37). -/
def operandText (ops : List Text) (k : Nat) : Text := (ops[k]?).getD []

/-! ### Pass 3 (R155, R157, R158) -/

/-- What an instruction line gives: the instruction, and the bytes it adds to the string pool. -/
structure Emitted where
  instr : Instr
  pool : List Byte
  deriving DecidableEq, Repr

/-- `print_operand(t)` (R158): a string literal goes to the data region, null-terminated, at the position it will
occupy, and the operand is its address. `dataLength` is the length of the data so far. -/
def printOperand (cfg : Config) (labels : Labels) (dataLength : Nat) (t : Text) : TaggedOperand × List Byte :=
  if isStringLiteral t then
    (immOperand (BitVec.ofNat 32 (cfg.dataOrigin + dataLength)), unescape (inner t) ++ [0x00])
  else (resolve cfg labels t, [])

/-- `encode(m, ops)` as an instruction with its raw fields (R157). The raw fields of the unary forms take the payload
of whatever operand resolved, whatever its tag (D38). -/
def buildInstr (cfg : Config) (labels : Labels) (dataLength : Nat) (m : Mnemonic) (ops : List Text) : Emitted :=
  let o0 := resolve cfg labels (operandText ops 0)
  let o1 := resolve cfg labels (operandText ops 1)
  match m with
  | .mov => ⟨.mov o0 o1, []⟩
  | .add => ⟨.add o0 o1, []⟩
  | .sub => ⟨.sub o0 o1, []⟩
  | .cmp => ⟨.cmp o0 o1, []⟩
  | .and => ⟨.and o0 o1, []⟩
  | .or => ⟨.or o0 o1, []⟩
  | .xor => ⟨.xor o0 o1, []⟩
  | .jmp => ⟨.jmp o0.payload, []⟩
  | .je => ⟨.je o0.payload, []⟩
  | .jne => ⟨.jne o0.payload, []⟩
  | .call => ⟨.call o0.payload, []⟩
  | .ret => ⟨.ret, []⟩
  | .nop => ⟨.nop, []⟩
  | .hlt => ⟨.hlt, []⟩
  | .push => ⟨.push (byteOf 0 o0.payload), []⟩
  | .pop => ⟨.pop (byteOf 0 o0.payload), []⟩
  | .inc => ⟨.inc (byteOf 0 o0.payload), []⟩
  | .dec => ⟨.dec (byteOf 0 o0.payload), []⟩
  | .input => ⟨.input (byteOf 0 o0.payload), []⟩
  | .int => ⟨.int (byteOf 0 o0.payload), []⟩
  | .print =>
    let p := printOperand cfg labels dataLength (operandText ops 0)
    ⟨.print p.1, p.2⟩

/-- The running values of passes 3 and 4: the code, the data and the diagnostics so far. -/
structure Emission where
  code : List Byte
  data : List Byte
  diags : List Diagnostic
  deriving DecidableEq, Repr

/-- Pass 3 on line number `i` (R155). A token that names no mnemonic is reported, and the line is skipped. -/
def Emission.codeLine (cfg : Config) (labels : Labels) (e : Emission) (i : Nat) (l : Line) : Emission :=
  match l.kind with
  | .instr token operands =>
    match mnemonicNamed cfg token with
    | some m =>
      let built := buildInstr cfg labels e.data.length m (splitCommas operands)
      { e with code := e.code ++ encode cfg.opc built.instr, data := e.data ++ built.pool }
    | none => { e with diags := e.diags ++ [.syntaxError i token] }
  | .empty | .data _ | .const _ _ => e

/-- Pass 3 from line number `i` on. -/
def pass3From (cfg : Config) (labels : Labels) : Emission → Nat → List Line → Emission
  | e, _, [] => e
  | e, i, l :: ls => pass3From cfg labels (e.codeLine cfg labels i l) (i + 1) ls

/-! ### Pass 4 (R165) -/

/-- The bytes of one `defbyte` item, and the diagnostics it gives on line number `i`. -/
def itemBytes (cfg : Config) (i : Nat) (tok : Text) : List Byte × List Diagnostic :=
  if isStringLiteral tok then
    match cfg.multicharDb with
    | .expand => (unescape (inner tok), [])
    | .firstByte => ((unescape (inner tok)).take 1, [])
  else
    match intLiteral? tok with
    | some n => ([BitVec.ofInt 8 n], [])
    | none => ([0x00], [.syntaxError i tok])

/-- Pass 4 on one item. -/
def Emission.item (cfg : Config) (i : Nat) (e : Emission) (tok : Text) : Emission :=
  { e with data := e.data ++ (itemBytes cfg i tok).1, diags := e.diags ++ (itemBytes cfg i tok).2 }

/-- Pass 4 on line number `i`. -/
def Emission.dataLine (cfg : Config) (e : Emission) (i : Nat) (l : Line) : Emission :=
  match l.kind with
  | .data items => (splitCommas items).foldl (Emission.item cfg i) e
  | .empty | .const _ _ | .instr _ _ => e

/-- Pass 4 from line number `i` on, after the string pool of pass 3. -/
def pass4From (cfg : Config) : Emission → Nat → List Line → Emission
  | e, _, [] => e
  | e, i, l :: ls => pass4From cfg (e.dataLine cfg i l) (i + 1) ls

/-! ### `assemble` (R130, R166) -/

/-- The result of `assemble`: the image, the label table, and the diagnostics the passes reported. -/
structure Image where
  code : List Byte
  data : List Byte
  labels : Labels
  diags : List Diagnostic
  deriving DecidableEq, Repr

/-- The image of parsed lines. -/
def assembleLines (cfg : Config) (ls : List Line) : Image :=
  let labels := labelTable cfg ls
  let e := pass4From cfg (pass3From cfg labels ⟨[], [], []⟩ 0 ls) 0 ls
  ⟨e.code, e.data, labels, e.diags⟩

/-- `assemble(source_text)`: it never aborts on a per-line error and always returns a result (R130). DESIGN CHOICE
(assumption 22): it does not check R10, so it answers an image under a configuration that `create` refuses. -/
def assemble (cfg : Config) (source : Text) : Image := assembleLines cfg (parseSource cfg source)

end Sys2Proof.Machine
end

