-- ==== Sys2Proof/Machine/HostOps.lean ====
section
/-! DEFINITION. The host's side of the machine: machine creation, `register_interrupt`, `load`, `run()`, the input
lines and the external cap (R7, R421, R431, R450, R452, R454). Each is one transaction on the state between two
turns; an operation the interface rejects is refused by name and changes nothing. -/

namespace Sys2Proof.Machine

/-- Machine creation (R450): refused for a configuration that breaks R10. DESIGN CHOICE (assumption 22): R10 does not say
which operation refuses it; here creation does, and no other. -/
def create (cfg : Config) : Result :=
  if cfg.valid then .next (State.fresh cfg) else .refused .invalidConfig

/-- `register_interrupt(vector, handler)` (R421): before `run()` only, vectors 0 to 255 only; it replaces any handler
installed there before. -/
def registerInterrupt (vector : Nat) (h : Handler) (s : State) : Result :=
  if 256 ≤ vector then .refused .vectorOutOfRange
  else if s.phase = .started then .refused .registrationDuringRun
  else .next { s with ivt := Ivt.put s.ivt (BitVec.ofNat 8 vector) h }

/-- The requirements of `load` (R450): the regions do not overlap, and the data fits the buffer. -/
def imageFits (cfg : Config) (code data : List Byte) : Bool :=
  cfg.codeOrigin + code.length ≤ cfg.dataOrigin && cfg.dataOrigin + data.length ≤ cfg.memSize

/-- `load(code, data, labels)` (R450). The labels are accepted and not used by the core (D52). One load per machine
(R452). -/
def load (code data : List Byte) (_labels : List (Text × Word)) (s : State) : Result :=
  if s.phase ≠ .created then .refused .alreadyLoaded
  else if imageFits s.cfg code data then
    .next { s with
      mem := Memory.putBytes (Memory.putBytes s.mem s.cfg.codeOrigin code) s.cfg.dataOrigin data
      codeEnd := BitVec.ofNat 32 (s.cfg.codeOrigin + code.length)
      ip := BitVec.ofNat 32 s.cfg.codeOrigin
      phase := .loaded }
  else .refused .imageDoesNotFit

/-- `run()` (R452): sets `running` and enters the loop, whose turns are `step`. One run per machine, after `load`. -/
def run (s : State) : Result :=
  if s.phase = .loaded then .next { s with running := true, phase := .started } else .refused .notReadyToRun

/-- The host supplies one more input line (R47, R454). -/
def supplyLine (line : Text) (s : State) : State := { s with input := s.input ++ [line] }

/-- The host imposes, moves or lifts its external cap: the number of further turns it allows (R431). With 0 the next
turn ends the run with Capped. -/
def setCap (turns : Option Nat) (s : State) : State := { s with hostCap := turns }

end Sys2Proof.Machine
end

