-- ==== Sys2Proof/Safety.lean ====
section
/-! DEFINITION. The terms claims are stated in: the invariant of the machine, what a run's record says of it, and what
an operand's value, its written result and the diagnostics of its accesses are, said of a state as a whole.

These are the spec's own words about a state (R72, R73, R203, R212, R213), written apart from the operations of
`Sys2Proof/Machine/`, so that a claim can hold the operations against them. -/

namespace Sys2Proof.Machine

/-! ### The invariant -/

/-- The reserved bits 31:2 of the flags word are 0 (R39). -/
def State.flagsReservedZero (s : State) : Bool := s.flags.extractLsb' 2 30 == 0

/-- `CODE_ORIGIN ≤ CODE_END ≤ DATA_ORIGIN` (R45, R450). -/
def State.codeEndOk (s : State) : Bool :=
  s.cfg.codeOrigin ≤ s.codeEnd.toNat && s.codeEnd.toNat ≤ s.cfg.dataOrigin

/-- The invariant every step keeps: the configuration meets R10, memory and the interrupt-vector table have their
canonical form, memory lies in the buffer, the reserved flag bits are 0, and `CODE_END` lies between the origins. -/
abbrev State.Inv (s : State) : Prop :=
  s.cfg.valid = true ∧ s.memWf = true ∧ Ivt.wf s.ivt = true ∧ s.flagsReservedZero = true ∧ s.codeEndOk = true

/-! ### What a run's record says (R401, R404) -/

/-- The numeric code of a diagnostic (R401). -/
def diagnosticCode : Diagnostic → Nat
  | .syntaxError _ _ => 1
  | .unresolvedSymbol => 2
  | .decodeFailure _ _ => 3
  | .memoryFault _ _ _ => 4
  | .inputFormatError _ => 5
  | .unhandledInterrupt _ => 6
  | .nonWritableDestination _ => 7
  | .undefinedOperand _ => 8

/-- A run is safe so far: the channel holds no record of code 3 or 8 (R404). -/
def State.noFaultRecorded (s : State) : Bool :=
  s.diags.all fun d => diagnosticCode d != 3 && diagnosticCode d != 8

/-- The run ended normally (R402). -/
def State.endedNormally (s : State) : Bool :=
  s.stopReason == some .halted || s.stopReason == some .endOfCode

/-- The core is in its loop: the run has begun, no stop reason is recorded, the host's cap allows a turn, HLT has not
cleared the running flag, and `ip` is below `CODE_END` (R200, R402, R431). -/
abbrev State.inLoop (s : State) : Prop :=
  s.stopReason = none ∧ s.phase = .started ∧ s.hostCap ≠ some 0 ∧ s.running = true ∧ s.ip < s.codeEnd

/-! ### Fetches and operands, said of a state as a whole -/

/-- The records that consuming the next `n` instruction bytes gives: one for each byte outside the buffer, in order
(R201, R203). -/
def State.fetchReports (s : State) (n : Nat) : List Diagnostic :=
  ((List.range n).filter fun k => s.cfg.memSize ≤ (s.ip + BitVec.ofNat 32 k).toNat).map fun k =>
    .memoryFault .fetch (s.ip + BitVec.ofNat 32 k) 1

/-- The state in which the next `n` instruction bytes are consumed (R201). -/
def State.pastFields (s : State) (n : Nat) : State :=
  { s with ip := s.ip + BitVec.ofNat 32 n, diags := s.diags ++ s.fetchReports n }

/-- The state in which an instruction stops on an undefined operand after its bytes up to `n` are consumed and the
records `ds` are made: only `ip`, the diagnostic channel and the stop reason differ (R211, R218). -/
def State.stoppedUndefined (s : State) (n : Nat) (ds : List Diagnostic) (info : UndefinedInfo) : State :=
  { s with
    ip := s.ip + BitVec.ofNat 32 n
    diags := s.diags ++ s.fetchReports n ++ ds ++ [.undefinedOperand info]
    stopReason := some (.undefinedOperand info) }

/-- The value of an operand (R212, under `UNKNOWN_SRC = zero`). -/
def State.operandValue (s : State) : Operand → Word
  | .reg c => s.x.get c
  | .imm v => v
  | .mem a => if a.toNat + 4 ≤ s.cfg.memSize then s.valueAt .word a.toNat else 0
  | .unknown => 0

/-- The records that reading an operand gives (R72, R212). -/
def State.readReports (s : State) : Operand → List Diagnostic
  | .mem a => if a.toNat + 4 ≤ s.cfg.memSize then [] else [.memoryFault .read a 4]
  | .reg _ | .imm _ | .unknown => []

/-- Reading the operand does not end the run (R212). -/
def State.canRead (s : State) : Operand → Bool
  | .unknown => s.cfg.unknownSrc == .zero
  | .reg _ | .imm _ | .mem _ => true

/-- Writing the operand does not end the run (R213). -/
def State.canWrite (s : State) : Operand → Bool
  | .imm _ | .unknown => s.cfg.destNonwritable == .drop
  | .reg _ | .mem _ => true

/-- The register file after a value is written to an operand (R213). -/
def State.writtenRegs (s : State) (o : Operand) (v : Word) : RegFile :=
  match o with
  | .reg c => s.x.set c v
  | .imm _ | .mem _ | .unknown => s.x

/-- The memory after a value is written to an operand: the 4 bytes, little-endian, or nothing (R71, R73, R213). -/
def State.writtenMem (s : State) (o : Operand) (v : Word) : Memory :=
  match o with
  | .mem a => if a.toNat + 4 ≤ s.cfg.memSize then Memory.putBytes s.mem a.toNat (le32Bytes v) else s.mem
  | .reg _ | .imm _ | .unknown => s.mem

/-- The records that writing an operand gives (R73, R213). -/
def State.writeReports (s : State) : Operand → List Diagnostic
  | .mem a => if a.toNat + 4 ≤ s.cfg.memSize then [] else [.memoryFault .write a 4]
  | .imm _ => [.nonWritableDestination 0x02]
  | .unknown => [.nonWritableDestination 0x00]
  | .reg _ => []

/-! ### What an instruction may write -/

/-- The address at which an instruction stores its 4 bytes, if its form stores: a Memory destination, or the stack
slot below SP (R75, R213, R283, R310). A host handler's stores are not the instruction's. -/
def State.storeTarget (s : State) : Instr → Option Word
  | .mov d _ | .add d _ | .sub d _ | .and d _ | .or d _ | .xor d _ =>
    match unpack s.cfg d with
    | .ok (.mem a) => some a
    | .ok (.reg _) | .ok (.imm _) | .ok .unknown | .error _ => none
  | .push _ | .call _ => some (s.x.get s.cfg.spCode - 4)
  | .cmp _ _ | .jmp _ | .je _ | .jne _ | .ret | .pop _ | .inc _ | .dec _ | .int _ | .nop | .hlt | .input _
  | .print _ => none

/-- The registers an instruction names as its destination (R33). -/
def State.namedDestination (s : State) : Instr → List RegCode
  | .mov d _ | .add d _ | .sub d _ | .and d _ | .or d _ | .xor d _ =>
    match unpack s.cfg d with
    | .ok (.reg c) => [c]
    | .ok (.mem _) | .ok (.imm _) | .ok .unknown | .error _ => []
  | .pop r | .inc r | .dec r | .input r =>
    match decodeReg s.cfg r with
    | .ok c => [c]
    | .error _ => []
  | .push _ | .call _ | .ret | .cmp _ _ | .jmp _ | .je _ | .jne _ | .int _ | .nop | .hlt | .print _ => []

/-- The stack pointer, where an instruction moves it implicitly (R32). -/
def State.implicitDestination (s : State) : Instr → List RegCode
  | .push _ | .pop _ | .call _ | .ret => [s.cfg.spCode]
  | .mov _ _ | .add _ _ | .sub _ _ | .cmp _ _ | .and _ _ | .or _ _ | .xor _ _ | .jmp _ | .je _ | .jne _ | .inc _
  | .dec _ | .int _ | .nop | .hlt | .input _ | .print _ => []

/-! ### Text -/

/-- A byte string of ASCII characters as text. -/
def asText (bs : List Byte) : Text := bs.map fun b => Char.ofNat b.toNat

/-- The number of PRINT lines among parsed source lines. -/
def printLines (cfg : Config) (ls : List Line) : Nat :=
  ls.countP fun l =>
    match l.kind with
    | .instr token _ => mnemonicNamed cfg token == some .print
    | .empty | .data _ | .const _ _ => false

/-- A line binds a name: as its label, or as the name of a constant (R146). -/
def lineBinds (name : Text) (l : Line) : Bool :=
  l.label == some name ||
    match l.kind with
    | .const n _ => n == name
    | .empty | .data _ | .instr _ _ => false

end Sys2Proof.Machine
end

