-- ==== Sys2Proof/Certificates/Slice0/Obligations.lean ====
section
/-! DEFINITION. The statements for the provers. Each docstring says which words of the spec it formalises and where a
clause is the model's own choice (the assumption's number). Opcodes, origins, sizes and policies are those of the
state's configuration: a statement about every state is one about every parameter choice, unless it says otherwise. -/

open Sys2Proof Sys2Proof.Machine

/-! ### Creation, load, run -/

/-- Machine creation (70_reset_and_hazards.md, the first list; decisions D7 to D9, D13, D24, D27; assumptions 2 and
15): every register 0 but the stack pointer at `MEM_SIZE` modulo `2^32`, flags 0, not running, every vector empty,
every byte 0, the channels empty. A configuration that breaks a constraint is refused: those of 00_scope.md section 4,
and with them two that are the model's reading of that section and not its words, one word of room for the stack
(assumption 12) and `ACC_CODE` naming ACCUMULATOR (assumption 21); that it is creation which refuses is the model's
choice (assumption 22). The reset state is the one created under the reference parameters (assumption 1). -/
def Obligations.CreationGivesTheResetTable : Prop :=
  create Config.reference = .next State.reset ∧
  (∀ cfg, cfg.valid = false → create cfg = .refused .invalidConfig) ∧
  ∀ cfg, cfg.valid = true →
    ∃ t, create cfg = .next t ∧ t.cfg = cfg ∧
      (∀ c, t.x.get c = if c = cfg.spCode then BitVec.ofNat 32 cfg.memSize else 0) ∧
      t.flags = 0 ∧ t.running = false ∧ (∀ v, Ivt.get t.ivt v = none) ∧ (∀ a, t.byteAt a = 0) ∧
      t.diags = [] ∧ t.output = [] ∧ t.stopReason = none

/-- The invariant holds at reset, and at creation under every configuration that meets the constraints (00_scope.md
section 4, 10_state.md section 7; the constraints include the model's own of assumptions 12 and 21, and `CODE_END`
before `load` is the model's, assumption 3). -/
def Obligations.ResetMeetsTheInvariant : Prop :=
  State.reset.Inv ∧ ∀ cfg, cfg.valid = true → (State.fresh cfg).Inv

/-- `load` (70_reset_and_hazards.md section 1; D28, D52): on a created machine an image that fits is placed byte for
byte at the origins, every other byte is as before, `CODE_END` is `CODE_ORIGIN + len(code)`, the entry point is
`CODE_ORIGIN`, and nothing else changes but the model's own phase field (assumption 4), which becomes loaded; one that
does not fit is refused. That the machine must be in the phase created is the model's too (assumption 4), and so are
two of the constraints of a valid configuration (assumptions 12 and 21). -/
def Obligations.LoadPlacesTheImage : Prop :=
  ∀ (s : State) (code data : List Byte) (labels : List (Text × Word)),
    s.phase = .created → s.cfg.valid = true →
    (¬ (s.cfg.codeOrigin + code.length ≤ s.cfg.dataOrigin ∧ s.cfg.dataOrigin + data.length ≤ s.cfg.memSize) →
      load code data labels s = .refused .imageDoesNotFit) ∧
    (s.cfg.codeOrigin + code.length ≤ s.cfg.dataOrigin → s.cfg.dataOrigin + data.length ≤ s.cfg.memSize →
      ∃ t, load code data labels s = .next t ∧
        t.ip.toNat = s.cfg.codeOrigin ∧ t.codeEnd.toNat = s.cfg.codeOrigin + code.length ∧
        (∀ b, t.byteAt b =
          if s.cfg.codeOrigin ≤ b ∧ b < s.cfg.codeOrigin + code.length then code.getD (b - s.cfg.codeOrigin) 0
          else if s.cfg.dataOrigin ≤ b ∧ b < s.cfg.dataOrigin + data.length then data.getD (b - s.cfg.dataOrigin) 0
          else s.byteAt b) ∧
        t = { s with mem := t.mem, codeEnd := t.codeEnd, ip := t.ip, phase := .loaded })

/-- Every host operation keeps the invariant: creation's is stated above; here `register_interrupt`, `load`, `run()`,
an input line and the cap (70_reset_and_hazards.md section 1, 60_exceptions.md sections 3 and 4; two of the
constraints of a valid configuration are the model's, assumptions 12 and 21; how lines and the cap reach the machine
is the model's, assumptions 17 and 5). -/
def Obligations.HostOperationsKeepTheInvariant : Prop :=
  ∀ s : State, s.Inv →
    (∀ v h t, registerInterrupt v h s = .next t → t.Inv) ∧
    (∀ code data labels t, load code data labels s = .next t → t.Inv) ∧
    (∀ t, run s = .next t → t.Inv) ∧
    (∀ line, (supplyLine line s).Inv) ∧
    (∀ turns, (setCap turns s).Inv)

/-- `register_interrupt` and `run()` (60_exceptions.md section 3, 70_reset_and_hazards.md section 1; D24, D27): before
`run()`, for a vector 0 to 255, registration installs the handler, replacing any other, and changes no other vector and
no other state; a vector outside is refused, and so is every call once `run()` has begun. After `load`, `run()` sets
`running` and changes no other state but the model's own phase field (assumption 4); before it, and a second time, it
is refused. -/
def Obligations.RegistrationThenOneRun : Prop :=
  ∀ s : State,
    (∀ v h, 256 ≤ v → registerInterrupt v h s = .refused .vectorOutOfRange) ∧
    (∀ v h, v < 256 → s.phase = .started → registerInterrupt v h s = .refused .registrationDuringRun) ∧
    (∀ v h, v < 256 → s.phase ≠ .started →
      ∃ t, registerInterrupt v h s = .next t ∧ t = { s with ivt := t.ivt } ∧
        ∀ w : Byte, Ivt.get t.ivt w = if w.toNat = v then some h else Ivt.get s.ivt w) ∧
    (s.phase = .loaded → run s = .next { s with running := true, phase := .started }) ∧
    (s.phase ≠ .loaded → run s = .refused .notReadyToRun)

/-! ### The run loop -/

/-- A step runs the decoded instruction: in the loop, when the bytes at `ip` decode to `i`, the step is `exec i` in the
state in which the opcode byte is consumed; around `exec` the step adds that one byte's advance of `ip`, its fetch
record if it lies outside the buffer, and one turn of the host's cap (40_fetch_decode.md section 1; the cap is the
model's own field, assumption 5). -/
def Obligations.StepRunsTheDecodedInstruction : Prop :=
  ∀ (s : State) (i : Instr) (rest : List Byte),
    s.inLoop → decode s.cfg.opc s.instrBytes = .ok (i, rest) →
    step s =
      exec i { s with
        ip := s.ip + 1
        diags := s.diags ++ s.fetchReports 1
        hostCap := s.hostCap.map (· - 1) }

/-- A step runs the instruction whose encoding lies at `ip`: under an injective `OPC`, when the bytes fetched from `ip`
on are those of `encode i` (40_fetch_decode.md section 1; the cap is the model's own field, assumption 5). -/
def Obligations.StepRunsTheEncodedInstruction : Prop :=
  ∀ (s : State) (i : Instr),
    s.inLoop → s.cfg.opc.injective = true →
    (∀ k, k < i.length → s.fetchByte (s.ip + BitVec.ofNat 32 k) = (encode s.cfg.opc i).getD k 0) →
    step s =
      exec i { s with
        ip := s.ip + 1
        diags := s.diags ++ s.fetchReports 1
        hostCap := s.hostCap.map (· - 1) }

/-- The tests at the top of a turn, in order (40_fetch_decode.md section 1, D27; 60_exceptions.md sections 1 and 4,
D51): a stopped run takes no step; a run that has not begun takes none (assumption 4); the host's cap ends the run
between turns (assumption 5); then the running test, then the EndOfCode test. A test that ends the run changes only the
stop reason. -/
def Obligations.TurnTestsComeInOrder : Prop :=
  ∀ s : State,
    (∀ r, s.stopReason = some r → step s = .fault (.runStopped r)) ∧
    (s.stopReason = none → s.phase ≠ .started → step s = .refused .runNotBegun) ∧
    (s.stopReason = none → s.phase = .started →
      (s.hostCap = some 0 → step s = .next { s with stopReason := some .capped }) ∧
      (s.hostCap ≠ some 0 → s.running = false → step s = .next { s with stopReason := some .halted }) ∧
      (s.hostCap ≠ some 0 → s.running = true → s.codeEnd ≤ s.ip →
        step s = .next { s with stopReason := some .endOfCode }))

/-- DecodeFailure (40_fetch_decode.md section 1, 30_encoding.md section 4): an opcode byte that `OPC` does not assign
is reported and ends the run; of the spec's state only `ip` changes, to the opcode address + 1, with the record and
the stop reason. The clause on `hostCap`, which counts the turn, is the model's choice (a field of its own, assumption
5). The invariant puts the opcode byte inside the buffer. -/
def Obligations.UnassignedOpcodeStopsCleanly : Prop :=
  ∀ s : State, s.Inv → s.inLoop → s.cfg.opc.mnemonicOf (s.byteAt s.ip.toNat) = none →
    step s =
      .next { s with
        ip := s.ip + 1
        diags := s.diags ++ [.decodeFailure (s.byteAt s.ip.toNat) s.ip]
        stopReason := some .decodeFailure
        hostCap := s.hostCap.map (· - 1) }

/-! ### Encoding -/

/-- Decode inverts encode (30_encoding.md sections 1 to 3), for every instruction with every field at every value,
under every injective `OPC`: no bit of an encoding is dropped. That an instruction holds its raw fields, the ignored
payload bytes among them, is the model's reading (assumption 16). -/
def Obligations.DecodeInvertsEncode : Prop :=
  ∀ (opc : OpcodeMap) (i : Instr) (rest : List Byte), opc.injective = true →
    decode opc (encode opc i ++ rest) = .ok (i, rest)

/-- Encode inverts decode (30_encoding.md sections 1 to 3), under every `OPC`: what the decoder reads as `i` is the
encoding of `i` and the bytes it leaves. So no two byte strings of one length read as one instruction with the same
rest: that is the model's choice, not the spec's, and holds because an instruction keeps its raw fields (assumption
16). The spec's decoder ignores the padding of a Register payload and the payload of an Unknown operand
(30_encoding.md section 4); in the model the operand unpacker does. -/
def Obligations.EncodeInvertsDecode : Prop :=
  ∀ (opc : OpcodeMap) (bs : List Byte) (i : Instr) (rest : List Byte),
    decode opc bs = .ok (i, rest) → encode opc i ++ rest = bs

/-- R102 to R108: the bytes of each form, the opcode at the lowest address, the destination first, addresses and
payloads little-endian after the tag byte; a raw register byte is legal when it is 0x01 to 0x08, and every vector and
every target is legal. -/
def Obligations.FormsHaveTheirLayout : Prop :=
  ∀ opc : OpcodeMap,
    (encode opc .hlt = [opc.hlt] ∧ encode opc .nop = [opc.nop] ∧ encode opc .ret = [opc.ret]) ∧
    (∀ r, encode opc (.inc r) = [opc.inc, r] ∧ encode opc (.dec r) = [opc.dec, r] ∧
      encode opc (.push r) = [opc.push, r] ∧ encode opc (.pop r) = [opc.pop, r] ∧
      encode opc (.input r) = [opc.input, r] ∧
      ((Instr.inc r).wellFormed = true ↔ 1 ≤ r.toNat ∧ r.toNat ≤ 8) ∧
      ((Instr.dec r).wellFormed = true ↔ 1 ≤ r.toNat ∧ r.toNat ≤ 8) ∧
      ((Instr.push r).wellFormed = true ↔ 1 ≤ r.toNat ∧ r.toNat ≤ 8) ∧
      ((Instr.pop r).wellFormed = true ↔ 1 ≤ r.toNat ∧ r.toNat ≤ 8) ∧
      ((Instr.input r).wellFormed = true ↔ 1 ≤ r.toNat ∧ r.toNat ≤ 8)) ∧
    (∀ v, encode opc (.int v) = [opc.int, v] ∧ (Instr.int v).wellFormed = true) ∧
    (∀ p ∈ [(Instr.jmp, opc.jmp), (Instr.je, opc.je), (Instr.jne, opc.jne), (Instr.call, opc.call)], ∀ t : Word,
      encode opc (p.1 t) =
        [p.2, t.extractLsb' 0 8, t.extractLsb' 8 8, t.extractLsb' 16 8, t.extractLsb' 24 8] ∧
      (p.1 t).wellFormed = true) ∧
    (∀ p ∈ [(Instr.mov, opc.mov), (Instr.add, opc.add), (Instr.sub, opc.sub), (Instr.cmp, opc.cmp),
        (Instr.and, opc.and), (Instr.or, opc.or), (Instr.xor, opc.xor)], ∀ d src : TaggedOperand,
      encode opc (p.1 d src) =
        [p.2, d.tag, d.payload.extractLsb' 0 8, d.payload.extractLsb' 8 8, d.payload.extractLsb' 16 8,
          d.payload.extractLsb' 24 8, src.tag, src.payload.extractLsb' 0 8, src.payload.extractLsb' 8 8,
          src.payload.extractLsb' 16 8, src.payload.extractLsb' 24 8]) ∧
    (∀ o : TaggedOperand, encode opc (.print o) =
      [opc.print, o.tag, o.payload.extractLsb' 0 8, o.payload.extractLsb' 8 8, o.payload.extractLsb' 16 8,
        o.payload.extractLsb' 24 8])

/-- Words written out in 95_test_vectors.md decode, under the reference `OPC` (D1), to the instruction they stand
for. -/
def Obligations.SpecWordsDecode : Prop :=
  decode .reference [0x01, 0x01, 0x01, 0, 0, 0, 0x02, 0x05, 0, 0, 0] = .ok (.mov ⟨0x01, 1⟩ ⟨0x02, 5⟩, []) ∧
  decode .reference [0x02, 0x01, 0x02, 0, 0, 0, 0x03, 0x00, 0x80, 0, 0] = .ok (.add ⟨0x01, 2⟩ ⟨0x03, 0x8000⟩, []) ∧
  decode .reference [0x08, 0x06, 0x10, 0x00, 0x00, 0xFF, 0x09] = .ok (.call 0x1006, [0xFF, 0x09]) ∧
  decode .reference [0x0A, 0x01] = .ok (.push 1, []) ∧
  decode .reference [0x0E, 0x80] = .ok (.int 0x80, []) ∧
  decode .reference [0xFF] = .ok (.hlt, []) ∧
  decode .reference [0x15, 0x02, 0x00, 0x80, 0x00, 0x00] = .ok (.print ⟨0x02, 0x8000⟩, []) ∧
  decode .reference [0x10] = .error (.unassignedOpcode 0x10) ∧
  decode .reference [0x00] = .error (.unassignedOpcode 0x00)

/-- The operand unpacker (40_fetch_decode.md section 3; D14, D16 to D18): each tag's variant; the payload of Unknown
and bytes 1 to 3 of a Register payload are ignored; a register code other than 0x01 to 0x08 has no meaning; a tag of
0x04 or above is bad or Unknown, by `BAD_TAG`. -/
def Obligations.UnpackerReadsEachTag : Prop :=
  ∀ (cfg : Config) (p : Word),
    unpack cfg ⟨0x00, p⟩ = .ok .unknown ∧
    (∀ c : RegCode, p.extractLsb' 0 8 = c.toByte → unpack cfg ⟨0x01, p⟩ = .ok (.reg c)) ∧
    ((p.extractLsb' 0 8).toNat = 0 ∨ 9 ≤ (p.extractLsb' 0 8).toNat →
      unpack cfg ⟨0x01, p⟩ = .error (.regCode (p.extractLsb' 0 8))) ∧
    unpack cfg ⟨0x02, p⟩ = .ok (.imm p) ∧
    unpack cfg ⟨0x03, p⟩ = .ok (.mem p) ∧
    (∀ t : Byte, 4 ≤ t.toNat →
      unpack cfg ⟨t, p⟩ = match cfg.badTag with
        | .fault => .error (.tag t)
        | .asUnknown => .ok .unknown)

/-! ### Undefined operands -/

/-- Where a bad tag or register code stops each instruction that has an operand or a register field
(40_fetch_decode.md section 3; D16, D17, D21): just past the operand that failed, before any operand is read, with
nothing changed but `ip`, the record and the stop. That both the record and the stop reason carry the field is the
model's reading (assumption 19). -/
def Obligations.BadEncodingStopsPastTheOperand : Prop :=
  ∀ (s : State) (d src : TaggedOperand) (r : Byte) (info : UndefinedInfo),
    (∀ mk ∈ [Instr.mov, Instr.add, Instr.sub, Instr.cmp, Instr.and, Instr.or, Instr.xor],
      (unpack s.cfg d = .error info → exec (mk d src) s = .next (s.stoppedUndefined 5 [] info)) ∧
      (∀ od, unpack s.cfg d = .ok od → unpack s.cfg src = .error info →
        exec (mk d src) s = .next (s.stoppedUndefined 10 [] info))) ∧
    (unpack s.cfg d = .error info → exec (.print d) s = .next (s.stoppedUndefined 5 [] info)) ∧
    (∀ mk ∈ [Instr.inc, Instr.dec, Instr.push, Instr.pop, Instr.input],
      decodeReg s.cfg r = .error info → exec (mk r) s = .next (s.stoppedUndefined 1 [] info))

/-- Where an operand that decodes stops the instruction, under `UNKNOWN_SRC = fault` and `DEST_NONWRITABLE = fault`
(40_fetch_decode.md section 3; D14, D15, D21): at the read of an Unknown operand, or at the write of an Immediate or
Unknown destination; the records of the accesses before it stand. That both the record and the stop reason carry the
field, and which tag it is, is the model's reading (assumption 19). -/
def Obligations.FaultPoliciesStopTheInstruction : Prop :=
  ∀ (s : State) (d src : TaggedOperand) (od os : Operand),
    unpack s.cfg d = .ok od → unpack s.cfg src = .ok os →
    (∀ mk ∈ [Instr.add, Instr.sub, Instr.and, Instr.or, Instr.xor, Instr.cmp],
      (s.canRead od = false → exec (mk d src) s = .next (s.stoppedUndefined 10 [] (.tag 0x00))) ∧
      (s.canRead od = true → s.canRead os = false →
        exec (mk d src) s = .next (s.stoppedUndefined 10 (s.readReports od) (.tag 0x00)))) ∧
    (s.canRead os = false → exec (.mov d src) s = .next (s.stoppedUndefined 10 [] (.tag 0x00))) ∧
    (∀ mk ∈ [Instr.add, Instr.sub, Instr.and, Instr.or, Instr.xor],
      s.canRead od = true → s.canRead os = true → s.canWrite od = false →
      exec (mk d src) s =
        .next (s.stoppedUndefined 10 (s.readReports od ++ s.readReports os) (.destTag od.tag))) ∧
    (s.canRead os = true → s.canWrite od = false →
      exec (.mov d src) s = .next (s.stoppedUndefined 10 (s.readReports os) (.destTag od.tag))) ∧
    (s.canRead os = false → exec (.print src) s = .next (s.stoppedUndefined 5 [] (.tag 0x00)))

/-! ### Data movement, arithmetic, logic, compare -/

/-- MOV (41_data_arith.md; D11, D12, D15, D21): it completes for every operand forms that decode, are readable as the
source and writable as the destination; the destination takes the source's value, and nothing else changes but `ip`
and the records of its accesses, in their order. The destination's prior value is not read. -/
def Obligations.MovCopiesTheSource : Prop :=
  ∀ (s : State) (d src : TaggedOperand) (od os : Operand),
    unpack s.cfg d = .ok od → unpack s.cfg src = .ok os → s.canRead os = true → s.canWrite od = true →
    exec (.mov d src) s =
      .next { s with
        ip := s.ip + 10
        x := s.writtenRegs od (s.operandValue os)
        mem := s.writtenMem od (s.operandValue os)
        diags := s.diags ++ s.fetchReports 10 ++ s.readReports os ++ s.writeReports od }

/-- ADD, SUB, AND, OR and XOR (41_data_arith.md; D5, D11, D12, D15, D21): for every operand forms that decode, are
readable and whose destination is writable, the destination takes the result modulo `2^32`; nothing else changes but
`ip` and the records of the three accesses, in their order: no flag, no other register, no other byte. -/
def Obligations.ArithmeticAndLogicStoreTheResult : Prop :=
  ∀ (s : State) (d src : TaggedOperand) (od os : Operand),
    unpack s.cfg d = .ok od → unpack s.cfg src = .ok os →
    s.canRead od = true → s.canRead os = true → s.canWrite od = true →
    ∀ p ∈ [(Instr.add, fun a b : Word => a + b), (Instr.sub, fun a b => a - b), (Instr.and, fun a b => a &&& b),
        (Instr.or, fun a b => a ||| b), (Instr.xor, fun a b => a ^^^ b)],
      exec (p.1 d src) s =
        .next { s with
          ip := s.ip + 10
          x := s.writtenRegs od (p.2 (s.operandValue od) (s.operandValue os))
          mem := s.writtenMem od (p.2 (s.operandValue od) (s.operandValue os))
          diags :=
            s.diags ++ s.fetchReports 10 ++ s.readReports od ++ s.readReports os ++ s.writeReports od }

/-- A Memory destination, byte by byte (20_memory.md sections 2 and 3; D10, D12): inside the buffer its 4 bytes become
those of the result, the least significant at the lowest address; a range that leaves the buffer changes no byte;
every other byte, every register and the flags are as before. -/
def Obligations.MemoryDestinationsChangeTheirFourBytes : Prop :=
  ∀ (s : State) (d src : TaggedOperand) (a : Word) (os : Operand),
    unpack s.cfg d = .ok (.mem a) → unpack s.cfg src = .ok os → s.canRead os = true →
    ∀ p ∈ [(Instr.mov, fun _ b : Word => b), (Instr.add, fun a b => a + b), (Instr.sub, fun a b => a - b),
        (Instr.and, fun a b => a &&& b), (Instr.or, fun a b => a ||| b), (Instr.xor, fun a b => a ^^^ b)],
      ∃ t, exec (p.1 d src) s = .next t ∧ t.x = s.x ∧ t.flags = s.flags ∧ t.stopReason = s.stopReason ∧
        ∀ b, t.byteAt b =
          if a.toNat + 4 ≤ s.cfg.memSize ∧ a.toNat ≤ b ∧ b < a.toNat + 4 then
            (p.2 (s.operandValue (.mem a)) (s.operandValue os)).extractLsb' (8 * (b - a.toNat)) 8
          else s.byteAt b

/-- One operand in both positions (40_fetch_decode.md section 4, which derives it): SUB and XOR of a register with
itself leave 0 there, and so they do with a memory word; ADD of a memory word with itself doubles it modulo `2^32`. -/
def Obligations.SameOperandTwiceIsWellDefined : Prop :=
  ∀ (s : State) (o : TaggedOperand),
    (∀ c, unpack s.cfg o = .ok (.reg c) →
      (∃ t, exec (.sub o o) s = .next t ∧ t.x.get c = 0) ∧ (∃ t, exec (.xor o o) s = .next t ∧ t.x.get c = 0) ∧
      (∃ t, exec (.mov o o) s = .next t ∧ t.x = s.x)) ∧
    (∀ a, unpack s.cfg o = .ok (.mem a) → a.toNat + 4 ≤ s.cfg.memSize →
      (∃ t, exec (.sub o o) s = .next t ∧ t.valueAt .word a.toNat = 0) ∧
      (∃ t, exec (.xor o o) s = .next t ∧ t.valueAt .word a.toNat = 0) ∧
      (∃ t, exec (.add o o) s = .next t ∧
        (t.valueAt .word a.toNat).toNat = 2 * (s.valueAt .word a.toNat).toNat % 2 ^ 32))

/-- INC and DEC (41_data_arith.md; D5, D17): the named register is one more or one less modulo `2^32`; no flag, no
other register, no byte of memory changes. -/
def Obligations.IncAndDecChangeOneRegister : Prop :=
  ∀ (s : State) (r : Byte) (c : RegCode), decodeReg s.cfg r = .ok c →
    ∀ p ∈ [(Instr.inc, fun v : Word => v + 1), (Instr.dec, fun v => v - 1)],
      exec (p.1 r) s =
        .next { s with
          ip := s.ip + 1
          x := s.x.set c (p.2 (s.x.get c))
          diags := s.diags ++ s.fetchReports 1 }

/-- CMP (41_data_arith.md; D6, D7, D21): Z is set exactly when the two values are equal, N exactly when the first is
below the second as unsigned numbers, the reserved bits are 0; no operand is written. -/
def Obligations.CmpSetsTheFlags : Prop :=
  ∀ (s : State) (d src : TaggedOperand) (od os : Operand),
    unpack s.cfg d = .ok od → unpack s.cfg src = .ok os → s.canRead od = true → s.canRead os = true →
    ∃ t, exec (.cmp d src) s = .next t ∧
      (t.flags.getLsbD 0 = true ↔ s.operandValue od = s.operandValue os) ∧
      (t.flags.getLsbD 1 = true ↔ (s.operandValue od).toNat < (s.operandValue os).toNat) ∧
      (∀ k, 2 ≤ k → t.flags.getLsbD k = false) ∧
      t = { s with
        ip := s.ip + 10
        flags := t.flags
        diags := s.diags ++ s.fetchReports 10 ++ s.readReports od ++ s.readReports os }

/-- R40: whenever CMP executes, both flags are overwritten in full: what they held before has no part in the result.
CMP executes when both operands decode and are readable. -/
def Obligations.CmpOverwritesBothFlags : Prop :=
  ∀ (s : State) (d src : TaggedOperand) (od os : Operand) (f : Word),
    unpack s.cfg d = .ok od → unpack s.cfg src = .ok os → s.canRead od = true → s.canRead os = true →
    ∃ t, exec (.cmp d src) s = .next t ∧ exec (.cmp d src) { s with flags := f } = .next t

/-- Only CMP writes the flags (10_state.md section 3, D49): whatever any other instruction answers, a host handler's
INT included, the flags word is as before. -/
def Obligations.OnlyCmpWritesTheFlags : Prop :=
  ∀ (i : Instr) (s t : State), i.mnemonic ≠ .cmp → exec i s = .next t → t.flags = s.flags

/-! ### Control transfer and the stack -/

/-- R280: JMP sets `ip` to its target, whatever the flags; nothing else changes but the fetch records. -/
def Obligations.JmpJumpsUnconditionally : Prop :=
  ∀ (s : State) (target : Word),
    exec (.jmp target) s = .next { s with ip := target, diags := s.diags ++ s.fetchReports 4 }

/-- JE and JNE (42_control.md, D7): taken when Z is set, and when it is clear; otherwise `ip` stays past the address
field; for the same flags exactly one of the two is taken. N has no part. -/
def Obligations.ConditionalJumpsReadZ : Prop :=
  ∀ (s : State) (target : Word),
    exec (.je target) s =
      .next { s with
        ip := if s.flags.getLsbD 0 = true then target else s.ip + 4
        diags := s.diags ++ s.fetchReports 4 } ∧
    exec (.jne target) s =
      .next { s with
        ip := if s.flags.getLsbD 0 = true then s.ip + 4 else target
        diags := s.diags ++ s.fetchReports 4 }

/-- CALL (42_control.md; D5, D10): SP moves down by 4, the address right after the address field is stored there as a
little-endian word or dropped with a record, and `ip` is the target either way; no other register, flag or byte
changes. -/
def Obligations.CallPushesTheReturnAddress : Prop :=
  ∀ (s : State) (target : Word),
    exec (.call target) s =
      .next { s with
        ip := target
        x := s.x.set s.cfg.spCode (s.x.get s.cfg.spCode - 4)
        mem := s.writtenMem (.mem (s.x.get s.cfg.spCode - 4)) (s.ip + 4)
        diags := s.diags ++ s.fetchReports 4 ++ s.writeReports (.mem (s.x.get s.cfg.spCode - 4)) }

/-- RET (42_control.md, D10): `ip` is the word at SP, or 0 with a record if it leaves the buffer; SP moves up by 4;
nothing else changes. -/
def Obligations.RetPopsIntoIp : Prop :=
  ∀ s : State,
    exec .ret s =
      .next { s with
        ip := s.operandValue (.mem (s.x.get s.cfg.spCode))
        x := s.x.set s.cfg.spCode (s.x.get s.cfg.spCode + 4)
        diags := s.diags ++ s.readReports (.mem (s.x.get s.cfg.spCode)) }

/-- CALL and the matching RET (42_control.md, which derives it): after a CALL whose push lies in the buffer, a RET in
any later state that has the same SP and the same word there resumes right after the CALL's address field, with SP as
before the CALL. -/
def Obligations.RetUndoesCall : Prop :=
  ∀ (s t u : State) (target : Word),
    (s.x.get s.cfg.spCode - 4).toNat + 4 ≤ s.cfg.memSize →
    exec (.call target) s = .next t →
    u.cfg = s.cfg → u.x.get s.cfg.spCode = t.x.get s.cfg.spCode →
    (∀ b, (s.x.get s.cfg.spCode - 4).toNat ≤ b → b < (s.x.get s.cfg.spCode - 4).toNat + 4 → u.byteAt b = t.byteAt b) →
    ∃ w, exec .ret u = .next w ∧ w.ip = s.ip + 4 ∧ w.x.get s.cfg.spCode = s.x.get s.cfg.spCode

/-- PUSH (43_stack.md; D5, D10, D17, D21): the register is read, SP moves down by 4, the word is stored there or
dropped with a record; no other register, flag or byte changes. PUSH of the stack pointer stores its value before the
move. -/
def Obligations.PushStoresBelowSp : Prop :=
  ∀ (s : State) (r : Byte) (c : RegCode), decodeReg s.cfg r = .ok c →
    exec (.push r) s =
      .next { s with
        ip := s.ip + 1
        x := s.x.set s.cfg.spCode (s.x.get s.cfg.spCode - 4)
        mem := s.writtenMem (.mem (s.x.get s.cfg.spCode - 4)) (s.x.get c)
        diags := s.diags ++ s.fetchReports 1 ++ s.writeReports (.mem (s.x.get s.cfg.spCode - 4)) }

/-- POP (43_stack.md; D10, D17, D21): the register takes the word at SP, or 0 with a record if it leaves the buffer,
after SP has moved up by 4, so POP of the stack pointer leaves it at the popped word; no flag and no byte changes. -/
def Obligations.PopLoadsFromSp : Prop :=
  ∀ (s : State) (r : Byte) (c : RegCode), decodeReg s.cfg r = .ok c →
    exec (.pop r) s =
      .next { s with
        ip := s.ip + 1
        x := (s.x.set s.cfg.spCode (s.x.get s.cfg.spCode + 4)).set c
          (s.operandValue (.mem (s.x.get s.cfg.spCode)))
        diags := s.diags ++ s.fetchReports 1 ++ s.readReports (.mem (s.x.get s.cfg.spCode)) }

/-- PUSH then POP of one register (43_stack.md, which derives it): for a register that is not the stack pointer and a
push inside the buffer, every register is as before. -/
def Obligations.PopUndoesPush : Prop :=
  ∀ (s t : State) (r : Byte) (c : RegCode),
    decodeReg s.cfg r = .ok c → c ≠ s.cfg.spCode →
    (s.x.get s.cfg.spCode - 4).toNat + 4 ≤ s.cfg.memSize →
    exec (.push r) s = .next t →
    ∃ u, exec (.pop r) t = .next u ∧ u.x = s.x

/-! ### Interrupts, halt, no-op and I/O -/

/-- INT (44_system_io.md; D23, and assumption 8 for what a handler is): it consumes its vector byte; an empty vector
is reported and the run goes on with nothing else changed; an installed handler is invoked in the state after that
byte, and INT completes when the handler returns. -/
def Obligations.IntInvokesTheInstalledHandler : Prop :=
  ∀ (s : State) (v : Byte),
    (Ivt.get s.ivt v = none →
      exec (.int v) s =
        .next { s with
          ip := s.ip + 1
          diags := s.diags ++ s.fetchReports 1 ++ [.unhandledInterrupt v] }) ∧
    (∀ h, Ivt.get s.ivt v = some h →
      exec (.int v) s = (s.pastFields 1).hostCall h ∧
      (((s.pastFields 1).handlerRun h).ending = .ret →
        exec (.int v) s = .next ((s.pastFields 1).afterHandler ((s.pastFields 1).handlerRun h))))

/-- The outcomes of a host call (60_exceptions.md section 3, D23; assumption 8): a handler that returns leaves the
machine after its acts, and the run goes on; one that exits ends the run there; one that never returns leaves the core
stuck. A script's acts do what they say: they write a register, write memory inside the buffer or report a fault, and
append to the output. -/
def Obligations.HostCallHasThreeOutcomes : Prop :=
  ∀ (s : State) (h : Handler),
    ((s.handlerRun h).ending = .ret → s.hostCall h = .next (s.afterHandler (s.handlerRun h))) ∧
    ((s.handlerRun h).ending = .exit →
      s.hostCall h = .next { s.afterHandler (s.handlerRun h) with stopReason := some .hostExit }) ∧
    ((s.handlerRun h).ending = .blocks → s.hostCall h = .fault .handlerBlocked) ∧
    (∀ e, s.afterHandler ⟨[], e⟩ = { s with hostCalls := s.hostCalls + 1 }) ∧
    (∀ acts act e, s.afterHandler ⟨acts ++ [act], e⟩ = (s.afterHandler ⟨acts, e⟩).handlerAct act) ∧
    (∀ c v, s.handlerAct (.setReg c v) = { s with x := s.x.set c v }) ∧
    (∀ a v, s.handlerAct (.store .word a v) =
      { s with mem := s.writtenMem (.mem a) v, diags := s.diags ++ s.writeReports (.mem a) }) ∧
    (∀ a, s.handlerAct (.load .word a) = { s with diags := s.diags ++ s.readReports (.mem a) }) ∧
    (∀ bs, s.handlerAct (.print bs) = { s with output := s.output ++ bs })

/-- What a handler cannot change (60_exceptions.md section 3, D23): whatever INT answers, `ip` is the address after
INT and the flags, `running`, the vector table, `CODE_END` and the configuration are as before. The output and
diagnostic channels only grow (10_state.md section 6, 60_exceptions.md section 1). That a handler takes no input line,
and that it only appends where 60_exceptions.md section 3 says the two channels take new values, is the model's choice
(assumption 8, unsafe). -/
def Obligations.HandlersCannotTouchControlState : Prop :=
  ∀ (s t : State) (v : Byte), exec (.int v) s = .next t →
    t.ip = s.ip + 1 ∧ t.flags = s.flags ∧ t.running = s.running ∧ t.ivt = s.ivt ∧ t.codeEnd = s.codeEnd ∧
    t.cfg = s.cfg ∧ t.input = s.input ∧ s.output <+: t.output ∧ s.diags <+: t.diags

/-- HLT (44_system_io.md, D27): it clears the running flag and changes nothing else; the next turn, wherever `ip` is,
stops with Halted, unless the host's cap ends the run first. The phase and the cap in the hypotheses are the model's
own fields (assumptions 4 and 5). -/
def Obligations.HltStopsTheNextTurn : Prop :=
  ∀ s : State,
    exec .hlt s = .next { s with running := false } ∧
    ∀ t, exec .hlt s = .next t → t.stopReason = none → t.phase = .started → t.hostCap ≠ some 0 →
      step t = .next { t with stopReason := some .halted }

/-- R342: NOP has no effect; in its rule `ip` has already advanced. -/
def Obligations.NopDoesNothing : Prop :=
  ∀ s : State, exec .nop s = .next s

/-- INPUT (44_system_io.md; D5, D17, D25): it consumes one line; the register takes the parsed integer modulo `2^32`,
or 0 with a record if the line does not parse. With no line to supply the core is blocked under `INPUT_EOF = stuck`;
under `zero` the register takes 0 with a record (of an empty line: assumption 11). That an empty list of lines is a
host with no line to supply is the model's choice (assumption 17). -/
def Obligations.InputStoresTheParsedLine : Prop :=
  ∀ (s : State) (r : Byte) (c : RegCode), decodeReg s.cfg r = .ok c →
    (∀ line rest, s.input = line :: rest →
      (∀ n, parseInput s.cfg line = some n →
        exec (.input r) s =
          .next { s with
            ip := s.ip + 1
            x := s.x.set c (BitVec.ofInt 32 n)
            input := rest
            diags := s.diags ++ s.fetchReports 1 }) ∧
      (parseInput s.cfg line = none →
        exec (.input r) s =
          .next { s with
            ip := s.ip + 1
            x := s.x.set c 0
            input := rest
            diags := s.diags ++ s.fetchReports 1 ++ [.inputFormatError line] })) ∧
    (s.input = [] →
      (s.cfg.inputEof = .stuck → exec (.input r) s = .fault .inputBlocked) ∧
      (s.cfg.inputEof = .zero →
        exec (.input r) s =
          .next { s with
            ip := s.ip + 1
            x := s.x.set c 0
            diags := s.diags ++ s.fetchReports 1 ++ [.inputFormatError []] }))

/-- PRINT (44_system_io.md; D14, D26): an immediate is the address of a string, and its bytes go to the output with no
record; any other readable operand is a number, and its decimal text and one space go to the output. Nothing else
changes but `ip` and the records. -/
def Obligations.PrintWritesToTheOutput : Prop :=
  ∀ (s : State) (o : TaggedOperand) (op : Operand), unpack s.cfg o = .ok op → s.canRead op = true →
    ∃ t, exec (.print o) s = .next t ∧
      (∀ a, op = .imm a → t.output = s.output ++ s.stringAt a) ∧
      ((∀ a, op ≠ .imm a) → t.output = s.output ++ asciiDecimal (s.operandValue op) ++ [0x20]) ∧
      t = { s with
        ip := s.ip + 5
        output := t.output
        diags := s.diags ++ s.fetchReports 5 ++ s.readReports op }

/-- The string PRINT streams (44_system_io.md; D26, D50): the bytes from the address on, none of them 0, up to the
first 0 byte or the end of the buffer; nothing from an address at or beyond the end. -/
def Obligations.PrintedStringEndsAtNullOrBufferEnd : Prop :=
  ∀ (s : State) (a : Word),
    (s.cfg.memSize ≤ a.toNat → s.stringAt a = []) ∧
    (∀ k, k < (s.stringAt a).length →
      (s.stringAt a).getD k 0 = s.byteAt (a.toNat + k) ∧ s.byteAt (a.toNat + k) ≠ 0 ∧
      a.toNat + k < s.cfg.memSize) ∧
    (a.toNat + (s.stringAt a).length < s.cfg.memSize → s.byteAt (a.toNat + (s.stringAt a).length) = 0)

/-- The number text of PRINT (44_system_io.md, D26): decimal digits of exactly that value, at least one, with no
leading zero. -/
def Obligations.PrintedNumberIsItsDecimal : Prop :=
  ∀ v : Word,
    (∀ b ∈ asciiDecimal v, 0x30 ≤ b.toNat ∧ b.toNat ≤ 0x39) ∧
    (asciiDecimal v).foldl (fun n b => 10 * n + (b.toNat - 0x30)) 0 = v.toNat ∧
    asciiDecimal v ≠ [] ∧ ((asciiDecimal v).head? = some 0x30 → asciiDecimal v = [0x30])

/-- The reference `PARSE_INPUT` reads PRINT's text back (44_system_io.md, D25, D26; which characters are whitespace is
the model's choice, assumption 10): with any whitespace around it, with an optional plus sign, and negated with a minus
sign. -/
def Obligations.ReferenceParserReadsPrintedNumbers : Prop :=
  ∀ (v : Word) (before after : Text),
    (∀ c ∈ before, isSpace c = true) → (∀ c ∈ after, isSpace c = true) →
    parseDecimal (before ++ asText (asciiDecimal v) ++ after) = some (v.toNat : Int) ∧
    parseDecimal (before ++ '+' :: asText (asciiDecimal v) ++ after) = some (v.toNat : Int) ∧
    parseDecimal (before ++ '-' :: asText (asciiDecimal v) ++ after) = some (-(v.toNat : Int))

/-! ### Memory -/

/-- The bounded accesses (20_memory.md section 3, 40_fetch_decode.md section 2; D10, D12, D19): inside the buffer a
read gives the little-endian value and changes nothing, and a write changes its bytes only; a range that leaves the
buffer, by the exact sum, reads as zero or writes nothing, with one record; a fetch outside the buffer gives 0x00. -/
def Obligations.BoundedAccessesNeverWrap : Prop :=
  ∀ (s : State) (w : Width) (a v : Word),
    (a.toNat + Width.bytes w ≤ s.cfg.memSize →
      s.memRead w a = ((s.memRead w a).1, s) ∧
      (∀ k, (s.memRead w a).1.extractLsb' (8 * k) 8 =
        if k < Width.bytes w then s.byteAt (a.toNat + k) else 0) ∧
      (∀ b, (s.memWrite w a v).byteAt b =
        if a.toNat ≤ b ∧ b < a.toNat + Width.bytes w then v.extractLsb' (8 * (b - a.toNat)) 8 else s.byteAt b) ∧
      s.memWrite w a v = { s with mem := (s.memWrite w a v).mem }) ∧
    (s.cfg.memSize < a.toNat + Width.bytes w →
      s.memRead w a = (0, { s with diags := s.diags ++ [.memoryFault .read a (Width.bytes w)] }) ∧
      s.memWrite w a v = { s with diags := s.diags ++ [.memoryFault .write a (Width.bytes w)] }) ∧
    (s.cfg.memSize ≤ a.toNat → s.fetchByte a = 0x00) ∧
    (a.toNat < s.cfg.memSize → s.fetchByte a = s.byteAt a.toNat)

/-! ### Whole-machine rules -/

/-- Every step keeps the invariant: the canonical memory inside the buffer, the canonical vector table, the reserved
flag bits, `CODE_END` between the origins, and a configuration that meets its constraints. The canonical forms are the
model's data; two of the constraints are the model's too (assumptions 12 and 21). -/
def Obligations.EveryStepKeepsTheInvariant : Prop :=
  ∀ s t : State, s.Inv → step s = .next t → t.Inv

/-- What holds of every step of a run (10_state.md sections 4 and 6, 60_exceptions.md section 1; D22, D24, D53): it
only appends to the diagnostic and output channels and only takes lines from the front of the input channel, and it
leaves the vector table and `CODE_END` as they are. For a step that runs a handler the clauses on the three channels
rest on what the model lets a handler do (assumption 8). The clauses on the configuration and the phase are about
fields of the model's own (assumptions 1 and 4), of which the spec says nothing. -/
def Obligations.StepsOnlyGrowChannelsAndKeepTheTable : Prop :=
  ∀ s t : State, step s = .next t →
    s.diags <+: t.diags ∧ s.output <+: t.output ∧ t.input <:+ s.input ∧
    t.ivt = s.ivt ∧ t.codeEnd = s.codeEnd ∧ t.cfg = s.cfg ∧ t.phase = s.phase

/-- No instruction reads N (10_state.md section 3, which derives it): of two states that differ only in flag bits
other than Z, a step gives outcomes that differ only in those bits, or the same fault or refusal. -/
def Obligations.NothingReadsTheNegativeFlag : Prop :=
  ∀ (s : State) (f : Word), f.getLsbD 0 = s.flags.getLsbD 0 →
    (∀ t, step s = .next t →
      ∃ u, step { s with flags := f } = .next u ∧ u = { t with flags := u.flags } ∧
        u.flags.getLsbD 0 = t.flags.getLsbD 0) ∧
    (∀ e, step s = .fault e → step { s with flags := f } = .fault e) ∧
    (∀ e, step s = .refused e → step { s with flags := f } = .refused e)

/-- R36: a step that runs an instruction and does not end the run advances `ip` by the instruction's encoded length,
which is 1, 2, 5, 6 or 11, but for JMP, CALL, RET and a taken JE or JNE, which set it to an absolute target. -/
def Obligations.IpAdvancesByTheEncodedLength : Prop :=
  ∀ (s t : State) (i : Instr) (rest : List Byte),
    s.inLoop → decode s.cfg.opc s.instrBytes = .ok (i, rest) → step s = .next t → t.stopReason = none →
    ((encode s.cfg.opc i).length = i.length ∧ i.length ∈ [1, 2, 5, 6, 11]) ∧
    t.ip = match i with
      | .jmp a => a
      | .call a => a
      | .je a => if s.flags.getLsbD 0 = true then a else s.ip + BitVec.ofNat 32 i.length
      | .jne a => if s.flags.getLsbD 0 = true then s.ip + BitVec.ofNat 32 i.length else a
      | .ret => s.operandValue (.mem (s.x.get s.cfg.spCode))
      | _ => s.ip + BitVec.ofNat 32 i.length

/-- A step that stops on an undefined operand (40_fetch_decode.md section 4, which derives it): whatever the
instruction, it leaves only the advance of `ip`, the records and the stop; the last record is the one of the stop.
That both the record and the stop reason carry the field is the model's reading (assumption 19). -/
def Obligations.UndefinedOperandStopLeavesTheRest : Prop :=
  ∀ (i : Instr) (s t : State) (info : UndefinedInfo),
    exec i s = .next t → s.stopReason = none → t.stopReason = some (.undefinedOperand info) →
    t = { s with ip := t.ip, diags := t.diags, stopReason := t.stopReason } ∧
    ∃ ds, t.diags = s.diags ++ ds ++ [.undefinedOperand info]

/-- The memory frame: after any instruction but INT (a handler's stores are the host's), every byte outside the 4 bytes
its form stores to reads as before; a form that stores nothing leaves every byte (20_memory.md section 4). -/
def Obligations.OnlyTheStoredBytesChange : Prop :=
  ∀ (i : Instr) (s t : State), i.mnemonic ≠ .int → exec i s = .next t →
    ∀ b, (∀ a, s.storeTarget i = some a → ¬ (a.toNat ≤ b ∧ b < a.toNat + 4)) → t.byteAt b = s.byteAt b

/-- The register frame: after any instruction but INT (a handler's writes are the host's), every register but the named
destination and the implicitly moved stack pointer is as before (10_state.md section 1). -/
def Obligations.OnlyDestinationRegistersChange : Prop :=
  ∀ (i : Instr) (s t : State), i.mnemonic ≠ .int → exec i s = .next t →
    ∀ c, c ∉ s.namedDestination i → c ∉ s.implicitDestination i → t.x.get c = s.x.get c

/-- The frame of the remaining state (10_state.md sections 4 and 6): only HLT changes the running flag, only PRINT and
INT the output, only INPUT the input channel; no instruction changes the vector table or `CODE_END`. That a handler
under INT takes no input line is the model's choice (assumption 8). The clauses on the count of handler calls, the
configuration, the phase and the host's cap are about fields of the model's own (assumptions 8, 1, 4 and 5), of which
the spec says nothing. -/
def Obligations.EachChannelHasItsInstruction : Prop :=
  ∀ (i : Instr) (s t : State), exec i s = .next t →
    t.running = (if i.mnemonic = .hlt then false else s.running) ∧
    (i.mnemonic ≠ .print → i.mnemonic ≠ .int → t.output = s.output) ∧
    (i.mnemonic ≠ .input → t.input = s.input) ∧
    (i.mnemonic ≠ .int → t.hostCalls = s.hostCalls) ∧
    t.cfg = s.cfg ∧ t.ivt = s.ivt ∧ t.codeEnd = s.codeEnd ∧ t.phase = s.phase ∧ t.hostCap = s.hostCap

/-- The stack pointer's strides (10_state.md section 6 and 90_conflicts.md C4): an instruction that does not name the
stack pointer as its destination, INT aside, leaves it or moves it by exactly 4. -/
def Obligations.StackPointerMovesByFour : Prop :=
  ∀ (i : Instr) (s t : State), i.mnemonic ≠ .int → s.cfg.spCode ∉ s.namedDestination i → exec i s = .next t →
    t.x.get s.cfg.spCode = s.x.get s.cfg.spCode ∨
    t.x.get s.cfg.spCode = s.x.get s.cfg.spCode - 4 ∨
    t.x.get s.cfg.spCode = s.x.get s.cfg.spCode + 4

/-! ### The assembler -/

/-- `equ` (30_encoding.md section 6, D39, D45): the line binds its name to its integer, or 0, over any earlier binding;
other names keep theirs; it moves neither cursor and emits nothing. -/
def Obligations.EquBindsAndEmitsNothing : Prop :=
  ∀ (cfg : Config) (p : Scan) (name value : Text) (next : Option Line) (labels : Labels) (e : Emission) (i : Nat),
    let l : Line := ⟨none, .const name value⟩
    (p.line cfg l next).cc = p.cc ∧ (p.line cfg l next).dc = p.dc ∧
    (∀ n, Labels.find (p.line cfg l next).labels n =
      if n = name then some (BitVec.ofInt 32 ((intLiteral? value).getD 0)) else Labels.find p.labels n) ∧
    e.codeLine cfg labels i l = e ∧ e.dataLine cfg i l = e

/-- The size invariant (30_encoding.md section 9, which derives it): pass 1's code cursor and the code pass 3 emits
differ only by the declared size of PRINT: each PRINT line counts `PRINT_DECL_SIZE` in one and 6 in the other. -/
def Obligations.CodeCursorMatchesTheEmittedCode : Prop :=
  ∀ (cfg : Config) (labels : Labels) (ls : List Line),
    cfg.codeOrigin + (pass3From cfg labels ⟨[], [], []⟩ 0 ls).code.length + cfg.printDeclSize * printLines cfg ls =
      (pass1 cfg ls).cc + 6 * printLines cfg ls

/-- Code labels (30_encoding.md sections 6 and 9): with `PRINT_DECL_SIZE = 6`, a label on a line that binds to the code
cursor, of a name no other line binds and that is no constant of its own line, names the address at which pass 3 places
the code of that line. -/
def Obligations.CodeLabelsNameEmittedAddresses : Prop :=
  ∀ (cfg : Config) (before after : List Line) (l : Line) (name : Text) (labels : Labels),
    cfg.printDeclSize = 6 → l.label = some name → l.bindsData after.head? = false →
    (∀ v, l.kind ≠ .const name v) →
    (∀ k ∈ before ++ after, lineBinds name k = false) →
    Labels.find (labelTable cfg (before ++ l :: after)) name =
      some (BitVec.ofNat 32 (cfg.codeOrigin + (pass3From cfg labels ⟨[], [], []⟩ 0 before).code.length))

/-- Pass 2 recomputes the data cursor identically to pass 1, whatever the table (30_encoding.md section 6), and a data
label that is not bound again is the data origin and the number of items before it. -/
def Obligations.PassesAgreeOnTheDataCursor : Prop :=
  ∀ (cfg : Config) (ls : List Line) (t : Labels),
    (pass2 cfg ls t).1 = (pass1 cfg ls).dc ∧
    ∀ (before after : List Line) (l : Line) (name : Text),
      ls = before ++ l :: after → l.label = some name → l.bindsData after.head? = true →
      (∀ k ∈ after, k.label ≠ some name) →
      Labels.find (pass2 cfg ls t).2 name =
        some (BitVec.ofNat 32 (cfg.dataOrigin + (before.map Line.dataSize).sum))

/-- PRINT of a string literal (30_encoding.md section 7; D35, D43): the operand is the immediate address of the end of
the data so far; the string and one null byte are appended there; the code side is one 6-byte instruction. -/
def Obligations.PrintStringsGoToThePool : Prop :=
  ∀ (cfg : Config) (labels : Labels) (e : Emission) (i : Nat) (l : Line) (token operands lit : Text),
    l.kind = .instr token operands → mnemonicNamed cfg token = some .print →
    (splitCommas operands)[0]? = some lit → isStringLiteral lit = true →
    e.codeLine cfg labels i l =
      { e with
        code := e.code ++
          encode cfg.opc (.print ⟨0x02, BitVec.ofNat 32 (cfg.dataOrigin + e.data.length)⟩)
        data := e.data ++ unescape (inner lit) ++ [0x00] }

/-- Every tagged operand the assembler resolves is as the tag table gives it, whatever the text (30_encoding.md
sections 2 and 7): no reserved tag, no register code outside 0x01 to 0x08, zero padding. -/
def Obligations.AssembledOperandsAreWellFormed : Prop :=
  ∀ (cfg : Config) (labels : Labels) (n : Nat) (t : Text),
    (resolve cfg labels t).wellFormed = true ∧ (printOperand cfg labels n t).1.wellFormed = true

/-- The assembler's records (60_exceptions.md section 1, D54): whatever the source text, `assemble` reports only
SyntaxError, each with the number of a line; UnresolvedSymbol is never written to the channel. That the records are
part of the result of `assemble` is the model's reading (assumption 13). -/
def Obligations.AssemblerReportsOnlySyntaxErrors : Prop :=
  ∀ (cfg : Config) (source : Text), ∀ d ∈ (assemble cfg source).diags,
    ∃ line token, d = .syntaxError line token ∧ line < (sourceLines source).length
end

