-- ==== Sys2Proof/Laws/Decode.lean ====
section
/-! SUPPORT. Dispatch under an injective `OPC` (R110, R111). -/

namespace Sys2Proof

theorem Mnemonic.mem_all (m : Mnemonic) : m ∈ Mnemonic.all := by cases m <;> decide

/-- Two mnemonics with one opcode byte are one mnemonic. -/
theorem OpcodeMap.code_inj {opc : OpcodeMap} (h : opc.injective = true) {m n : Mnemonic}
    (e : opc.code m = opc.code n) : m = n := by
  simp only [OpcodeMap.injective, List.all_eq_true] at h
  simpa [e] using h m m.mem_all n n.mem_all

/-- The opcode byte of a mnemonic dispatches to it. -/
theorem OpcodeMap.mnemonicOf_code {opc : OpcodeMap} (h : opc.injective = true) (m : Mnemonic) :
    opc.mnemonicOf (opc.code m) = some m := by
  unfold OpcodeMap.mnemonicOf
  cases hf : Mnemonic.all.find? fun n => opc.code n == opc.code m with
  | none => simpa using List.find?_eq_none.1 hf m m.mem_all
  | some n => rw [OpcodeMap.code_inj h (by simpa using List.find?_some hf : opc.code n = opc.code m)]

end Sys2Proof
end

