-- ==== Sys2Proof/Laws/Memory.lean ====
section
/-! SUPPORT. The memory buffer: a read after a write to the same place gives the byte written, a write leaves every
other place alone, and every write keeps the canonical form. -/

namespace Sys2Proof.Machine

theorem Memory.get_insert (m : Memory) (a b : Nat) (v : Byte) :
    Memory.get (Memory.insert m a v) b = if b = a then v else Memory.get m b := by
  induction m with
  | nil => simp [Memory.insert, Memory.get]
  | cons cell m ih =>
    obtain ⟨k, c⟩ := cell
    simp only [Memory.insert]
    by_cases h1 : a < k
    · simp [h1, Memory.get]
    · by_cases h2 : a = k
      · subst h2
        by_cases h3 : b = a <;> simp [Memory.get, h3]
      · simp only [h1, h2, if_false, Memory.get, ih]
        by_cases h3 : b = k
        · have h4 : ¬ b = a := by omega
          have h5 : ¬ k = a := by omega
          simp [h3, h5]
        · simp [h3]

theorem Memory.get_erase (m : Memory) (a b : Nat) :
    Memory.get (m.filter fun cell => cell.1 != a) b = if b = a then Memory.unlisted else Memory.get m b := by
  induction m with
  | nil => simp [Memory.get]
  | cons cell m ih =>
    obtain ⟨k, c⟩ := cell
    by_cases h1 : k = a
    · subst h1
      rw [List.filter_cons_of_neg (by simp), ih]
      by_cases h2 : b = k <;> simp [Memory.get, h2]
    · by_cases h2 : b = k
      · subst h2
        simp [Memory.get, h1]
      · simp [Memory.get, h1, h2, ih]

/-- A read after a write. -/
theorem Memory.get_put (m : Memory) (a b : Nat) (v : Byte) :
    Memory.get (Memory.put m a v) b = if b = a then v else Memory.get m b := by
  unfold Memory.put
  by_cases h : v = Memory.unlisted
  · simp [h, Memory.get_erase]
  · simp [h, Memory.get_insert]

/-- Reads after a run of bytes is written. -/
theorem Memory.get_putBytes (bs : List Byte) (m : Memory) (a b : Nat) :
    Memory.get (Memory.putBytes m a bs) b =
      if a ≤ b ∧ b < a + bs.length then bs.getD (b - a) Memory.unlisted else Memory.get m b := by
  induction bs generalizing m a with
  | nil =>
    have h : ¬ (a ≤ b ∧ b < a + ([] : List Byte).length) := by simp
    rw [if_neg h]
    rfl
  | cons v bs ih =>
    simp only [Memory.putBytes, ih, Memory.get_put, List.length_cons]
    by_cases h1 : b = a
    · subst h1
      have h2 : ¬ b + 1 ≤ b := by omega
      simp [h2]
    · by_cases h2 : a + 1 ≤ b ∧ b < a + 1 + bs.length
      · have h3 : a ≤ b ∧ b < a + (bs.length + 1) := by omega
        have h4 : b - a = (b - (a + 1)) + 1 := by omega
        rw [if_pos h2, if_pos h3, h4]
        simp
      · have h3 : ¬ (a ≤ b ∧ b < a + (bs.length + 1)) := by omega
        rw [if_neg h2, if_neg h3, if_neg h1]

/-! ### The canonical form -/

theorem Memory.wfBelow_cons {size k : Nat} {b : Byte} {m : Memory} :
    Memory.wfBelow size ((k, b) :: m) = true ↔
      k < size ∧ b ≠ Memory.unlisted ∧ (∀ cell ∈ m, k < cell.1) ∧ Memory.wfBelow size m = true := by
  simp [Memory.wfBelow, and_assoc]

theorem Memory.mem_insert {m : Memory} {a : Nat} {v : Byte} {cell : Host.Cell} (h : cell ∈ Memory.insert m a v) :
    cell = (a, v) ∨ cell ∈ m := by
  induction m with
  | nil => simpa [Memory.insert] using h
  | cons e m ih =>
    obtain ⟨k, c⟩ := e
    simp only [Memory.insert] at h
    split at h
    · simpa using h
    · split at h
      · simp only [List.mem_cons] at h ⊢
        tauto
      · simp only [List.mem_cons] at h ⊢
        tauto

theorem Memory.wfBelow_insert {size : Nat} {m : Memory} (hm : Memory.wfBelow size m = true) {a : Nat} {v : Byte}
    (ha : a < size) (hv : v ≠ Memory.unlisted) : Memory.wfBelow size (Memory.insert m a v) = true := by
  induction m with
  | nil => simp [Memory.insert, Memory.wfBelow, ha, hv]
  | cons e m ih =>
    obtain ⟨k, c⟩ := e
    obtain ⟨hk, hc, hall, hm'⟩ := Memory.wfBelow_cons.1 hm
    simp only [Memory.insert]
    by_cases h1 : a < k
    · rw [if_pos h1]
      refine Memory.wfBelow_cons.2 ⟨ha, hv, ?_, hm⟩
      intro cell hcell
      rcases List.mem_cons.1 hcell with rfl | hcell
      · exact h1
      · exact lt_trans h1 (hall cell hcell)
    · rw [if_neg h1]
      by_cases h2 : a = k
      · rw [if_pos h2]
        subst h2
        exact Memory.wfBelow_cons.2 ⟨ha, hv, hall, hm'⟩
      · rw [if_neg h2]
        refine Memory.wfBelow_cons.2 ⟨hk, hc, ?_, ih hm'⟩
        intro cell hcell
        rcases Memory.mem_insert hcell with rfl | hcell
        · show k < a
          omega
        · exact hall cell hcell

theorem Memory.wfBelow_filter {size : Nat} {m : Memory} (hm : Memory.wfBelow size m = true)
    (p : Host.Cell → Bool) : Memory.wfBelow size (m.filter p) = true := by
  induction m with
  | nil => simp [Memory.wfBelow]
  | cons e m ih =>
    obtain ⟨k, c⟩ := e
    obtain ⟨hk, hc, hall, hm'⟩ := Memory.wfBelow_cons.1 hm
    by_cases h : p (k, c) = true
    · rw [List.filter_cons_of_pos h]
      refine Memory.wfBelow_cons.2 ⟨hk, hc, ?_, ih hm'⟩
      intro cell hcell
      exact hall cell (List.mem_filter.1 hcell).1
    · rw [List.filter_cons_of_neg h]
      exact ih hm'

/-- A write inside the buffer keeps the canonical form. -/
theorem Memory.wfBelow_put {size : Nat} {m : Memory} (hm : Memory.wfBelow size m = true) {a : Nat} (ha : a < size)
    (v : Byte) : Memory.wfBelow size (Memory.put m a v) = true := by
  unfold Memory.put
  split
  · exact Memory.wfBelow_filter hm _
  · exact Memory.wfBelow_insert hm ha (by assumption)

/-- A run of writes inside the buffer keeps the canonical form. -/
theorem Memory.wfBelow_putBytes {size : Nat} (bs : List Byte) {m : Memory} (hm : Memory.wfBelow size m = true)
    {a : Nat} (ha : a + bs.length ≤ size) : Memory.wfBelow size (Memory.putBytes m a bs) = true := by
  induction bs generalizing m a with
  | nil => exact hm
  | cons v bs ih =>
    simp only [List.length_cons] at ha
    exact ih (Memory.wfBelow_put hm (by omega) v) (by omega)

/-- The word a write leaves is the word a read of the same place gives. -/
theorem Memory.word_putBytes (m : Memory) (a : Nat) (v : Word) :
    le32 (Memory.get (Memory.putBytes m a (le32Bytes v)) a)
      (Memory.get (Memory.putBytes m a (le32Bytes v)) (a + 1))
      (Memory.get (Memory.putBytes m a (le32Bytes v)) (a + 2))
      (Memory.get (Memory.putBytes m a (le32Bytes v)) (a + 3)) =
    le32 (byteOf 0 v) (byteOf 1 v) (byteOf 2 v) (byteOf 3 v) := by
  simp [Memory.get_putBytes, le32Bytes]

/-! ### The interrupt-vector table -/

theorem Ivt.get_put (t : Ivt) (v w : Byte) (h : Handler) :
    Ivt.get (Ivt.put t v h) w = if w = v then some h else Ivt.get t w := by
  induction t with
  | nil => simp [Ivt.put, Ivt.get]
  | cons e t ih =>
    obtain ⟨k, g⟩ := e
    simp only [Ivt.put]
    by_cases h1 : v < k
    · simp [h1, Ivt.get]
    · by_cases h2 : v = k
      · subst h2
        by_cases h3 : w = v <;> simp [Ivt.get, h3]
      · simp only [h1, h2, if_false, Ivt.get, ih]
        by_cases h3 : w = k
        · subst h3
          have h4 : ¬ w = v := fun h => h2 h.symm
          simp [h4]
        · simp [h3]

theorem Ivt.wf_cons {k : Byte} {h : Handler} {t : Ivt} :
    Ivt.wf ((k, h) :: t) = true ↔ (∀ e ∈ t, k < e.1) ∧ Ivt.wf t = true := by
  simp [Ivt.wf]

theorem Ivt.mem_put {t : Ivt} {v : Byte} {h : Handler} {e : Byte × Handler} (he : e ∈ Ivt.put t v h) :
    e = (v, h) ∨ e ∈ t := by
  induction t with
  | nil => simpa [Ivt.put] using he
  | cons d t ih =>
    obtain ⟨k, g⟩ := d
    simp only [Ivt.put] at he
    split at he
    · simpa using he
    · split at he
      · simp only [List.mem_cons] at he ⊢
        tauto
      · simp only [List.mem_cons] at he ⊢
        tauto

/-- Installing a handler keeps the canonical form of the table. -/
theorem Ivt.wf_put {t : Ivt} (ht : Ivt.wf t = true) (v : Byte) (h : Handler) : Ivt.wf (Ivt.put t v h) = true := by
  induction t with
  | nil => simp [Ivt.put, Ivt.wf]
  | cons d t ih =>
    obtain ⟨k, g⟩ := d
    obtain ⟨hall, ht'⟩ := Ivt.wf_cons.1 ht
    simp only [Ivt.put]
    by_cases h1 : v < k
    · rw [if_pos h1]
      refine Ivt.wf_cons.2 ⟨?_, ht⟩
      intro e he
      rcases List.mem_cons.1 he with rfl | he
      · exact h1
      · exact BitVec.lt_trans h1 (hall e he)
    · rw [if_neg h1]
      by_cases h2 : v = k
      · rw [if_pos h2]
        subst h2
        exact Ivt.wf_cons.2 ⟨hall, ht'⟩
      · rw [if_neg h2]
        refine Ivt.wf_cons.2 ⟨?_, ih ht'⟩
        intro e he
        rcases Ivt.mem_put he with rfl | he
        · show k < v
          have h3 : k ≤ v := BitVec.not_lt.1 h1
          exact BitVec.lt_of_le_ne h3 (fun h => h2 h.symm)
        · exact hall e he

end Sys2Proof.Machine
end

