-- ==== Sys2Proof/Laws/Registers.lean ====
section
/-! SUPPORT. The register file: a read after a write gives the value written, and a write leaves every other register
alone; register codes and their bytes are in bijection (R30). -/

namespace Sys2Proof

theorem PerReg.get_set {α : Type} (x : PerReg α) (c d : RegCode) (v : α) :
    (x.set c v).get d = if d = c then v else x.get d := by
  cases c <;> cases d <;> rfl

@[simp] theorem PerReg.get_set_self {α : Type} (x : PerReg α) (c : RegCode) (v : α) : (x.set c v).get c = v := by
  simp [PerReg.get_set]

theorem PerReg.get_set_of_ne {α : Type} (x : PerReg α) {c d : RegCode} (v : α) (h : d ≠ c) :
    (x.set c v).get d = x.get d := by
  simp [PerReg.get_set, h]

@[simp] theorem PerReg.set_set {α : Type} (x : PerReg α) (c : RegCode) (v w : α) :
    (x.set c v).set c w = x.set c w := by
  cases c <;> rfl

/-- Writing back what a register holds changes nothing. -/
@[simp] theorem PerReg.set_get {α : Type} (x : PerReg α) (c : RegCode) : x.set c (x.get c) = x := by
  cases c <;> rfl

@[simp] theorem PerReg.get_all {α : Type} (v : α) (c : RegCode) : (PerReg.all v).get c = v := by
  cases c <;> rfl

/-- Two register files that read the same are the same. -/
theorem PerReg.ext_get {α : Type} {x y : PerReg α} (h : ∀ c, x.get c = y.get c) : x = y := by
  cases x
  cases y
  have h1 := h .c1
  have h2 := h .c2
  have h3 := h .c3
  have h4 := h .c4
  have h5 := h .c5
  have h6 := h .c6
  have h7 := h .c7
  have h8 := h .c8
  simp only [PerReg.get] at h1 h2 h3 h4 h5 h6 h7 h8
  simp_all

@[simp] theorem RegCode.ofByte?_toByte (c : RegCode) : RegCode.ofByte? c.toByte = some c := by
  cases c <;> decide

/-- A register byte names a register exactly when it is 0x01 to 0x08. -/
theorem RegCode.toByte_of_ofByte? {b : Byte} {c : RegCode} (h : RegCode.ofByte? b = some c) : c.toByte = b := by
  simpa using List.find?_some h

end Sys2Proof
end

