-- ==== Sys2Proof/Laws/State.lean ====
section
/-! SUPPORT. What each named update of the state does to each field: one lemma per field per update, true by rfl, so
that no later proof unfolds a record update. -/

namespace Sys2Proof.Machine

variable (s : State)

/-! ### `setReg` -/

@[simp] theorem State.setReg_cfg (c : RegCode) (v : Word) : (s.setReg c v).cfg = s.cfg := rfl
@[simp] theorem State.setReg_x (c : RegCode) (v : Word) : (s.setReg c v).x = s.x.set c v := rfl
@[simp] theorem State.setReg_ip (c : RegCode) (v : Word) : (s.setReg c v).ip = s.ip := rfl
@[simp] theorem State.setReg_flags (c : RegCode) (v : Word) : (s.setReg c v).flags = s.flags := rfl
@[simp] theorem State.setReg_running (c : RegCode) (v : Word) : (s.setReg c v).running = s.running := rfl
@[simp] theorem State.setReg_ivt (c : RegCode) (v : Word) : (s.setReg c v).ivt = s.ivt := rfl
@[simp] theorem State.setReg_codeEnd (c : RegCode) (v : Word) : (s.setReg c v).codeEnd = s.codeEnd := rfl
@[simp] theorem State.setReg_mem (c : RegCode) (v : Word) : (s.setReg c v).mem = s.mem := rfl
@[simp] theorem State.setReg_diags (c : RegCode) (v : Word) : (s.setReg c v).diags = s.diags := rfl
@[simp] theorem State.setReg_output (c : RegCode) (v : Word) : (s.setReg c v).output = s.output := rfl
@[simp] theorem State.setReg_input (c : RegCode) (v : Word) : (s.setReg c v).input = s.input := rfl
@[simp] theorem State.setReg_stopReason (c : RegCode) (v : Word) : (s.setReg c v).stopReason = s.stopReason := rfl
@[simp] theorem State.setReg_phase (c : RegCode) (v : Word) : (s.setReg c v).phase = s.phase := rfl
@[simp] theorem State.setReg_hostCap (c : RegCode) (v : Word) : (s.setReg c v).hostCap = s.hostCap := rfl
@[simp] theorem State.setReg_hostCalls (c : RegCode) (v : Word) : (s.setReg c v).hostCalls = s.hostCalls := rfl

/-! ### `setIp` -/

@[simp] theorem State.setIp_cfg (t : Word) : (s.setIp t).cfg = s.cfg := rfl
@[simp] theorem State.setIp_x (t : Word) : (s.setIp t).x = s.x := rfl
@[simp] theorem State.setIp_ip (t : Word) : (s.setIp t).ip = t := rfl
@[simp] theorem State.setIp_flags (t : Word) : (s.setIp t).flags = s.flags := rfl
@[simp] theorem State.setIp_running (t : Word) : (s.setIp t).running = s.running := rfl
@[simp] theorem State.setIp_ivt (t : Word) : (s.setIp t).ivt = s.ivt := rfl
@[simp] theorem State.setIp_codeEnd (t : Word) : (s.setIp t).codeEnd = s.codeEnd := rfl
@[simp] theorem State.setIp_mem (t : Word) : (s.setIp t).mem = s.mem := rfl
@[simp] theorem State.setIp_diags (t : Word) : (s.setIp t).diags = s.diags := rfl
@[simp] theorem State.setIp_output (t : Word) : (s.setIp t).output = s.output := rfl
@[simp] theorem State.setIp_input (t : Word) : (s.setIp t).input = s.input := rfl
@[simp] theorem State.setIp_stopReason (t : Word) : (s.setIp t).stopReason = s.stopReason := rfl
@[simp] theorem State.setIp_phase (t : Word) : (s.setIp t).phase = s.phase := rfl
@[simp] theorem State.setIp_hostCap (t : Word) : (s.setIp t).hostCap = s.hostCap := rfl
@[simp] theorem State.setIp_hostCalls (t : Word) : (s.setIp t).hostCalls = s.hostCalls := rfl

/-! ### `report` -/

@[simp] theorem State.report_cfg (d : Diagnostic) : (s.report d).cfg = s.cfg := rfl
@[simp] theorem State.report_x (d : Diagnostic) : (s.report d).x = s.x := rfl
@[simp] theorem State.report_ip (d : Diagnostic) : (s.report d).ip = s.ip := rfl
@[simp] theorem State.report_flags (d : Diagnostic) : (s.report d).flags = s.flags := rfl
@[simp] theorem State.report_running (d : Diagnostic) : (s.report d).running = s.running := rfl
@[simp] theorem State.report_ivt (d : Diagnostic) : (s.report d).ivt = s.ivt := rfl
@[simp] theorem State.report_codeEnd (d : Diagnostic) : (s.report d).codeEnd = s.codeEnd := rfl
@[simp] theorem State.report_mem (d : Diagnostic) : (s.report d).mem = s.mem := rfl
@[simp] theorem State.report_diags (d : Diagnostic) : (s.report d).diags = s.diags ++ [d] := rfl
@[simp] theorem State.report_output (d : Diagnostic) : (s.report d).output = s.output := rfl
@[simp] theorem State.report_input (d : Diagnostic) : (s.report d).input = s.input := rfl
@[simp] theorem State.report_stopReason (d : Diagnostic) : (s.report d).stopReason = s.stopReason := rfl
@[simp] theorem State.report_phase (d : Diagnostic) : (s.report d).phase = s.phase := rfl
@[simp] theorem State.report_hostCap (d : Diagnostic) : (s.report d).hostCap = s.hostCap := rfl
@[simp] theorem State.report_hostCalls (d : Diagnostic) : (s.report d).hostCalls = s.hostCalls := rfl

/-! ### `out` -/

@[simp] theorem State.out_cfg (bytes : List Byte) : (s.out bytes).cfg = s.cfg := rfl
@[simp] theorem State.out_x (bytes : List Byte) : (s.out bytes).x = s.x := rfl
@[simp] theorem State.out_ip (bytes : List Byte) : (s.out bytes).ip = s.ip := rfl
@[simp] theorem State.out_flags (bytes : List Byte) : (s.out bytes).flags = s.flags := rfl
@[simp] theorem State.out_running (bytes : List Byte) : (s.out bytes).running = s.running := rfl
@[simp] theorem State.out_ivt (bytes : List Byte) : (s.out bytes).ivt = s.ivt := rfl
@[simp] theorem State.out_codeEnd (bytes : List Byte) : (s.out bytes).codeEnd = s.codeEnd := rfl
@[simp] theorem State.out_mem (bytes : List Byte) : (s.out bytes).mem = s.mem := rfl
@[simp] theorem State.out_diags (bytes : List Byte) : (s.out bytes).diags = s.diags := rfl
@[simp] theorem State.out_output (bytes : List Byte) : (s.out bytes).output = s.output ++ bytes := rfl
@[simp] theorem State.out_input (bytes : List Byte) : (s.out bytes).input = s.input := rfl
@[simp] theorem State.out_stopReason (bytes : List Byte) : (s.out bytes).stopReason = s.stopReason := rfl
@[simp] theorem State.out_phase (bytes : List Byte) : (s.out bytes).phase = s.phase := rfl
@[simp] theorem State.out_hostCap (bytes : List Byte) : (s.out bytes).hostCap = s.hostCap := rfl
@[simp] theorem State.out_hostCalls (bytes : List Byte) : (s.out bytes).hostCalls = s.hostCalls := rfl

/-! ### `stop` -/

@[simp] theorem State.stop_cfg (r : StopReason) : (s.stop r).cfg = s.cfg := rfl
@[simp] theorem State.stop_x (r : StopReason) : (s.stop r).x = s.x := rfl
@[simp] theorem State.stop_ip (r : StopReason) : (s.stop r).ip = s.ip := rfl
@[simp] theorem State.stop_flags (r : StopReason) : (s.stop r).flags = s.flags := rfl
@[simp] theorem State.stop_running (r : StopReason) : (s.stop r).running = s.running := rfl
@[simp] theorem State.stop_ivt (r : StopReason) : (s.stop r).ivt = s.ivt := rfl
@[simp] theorem State.stop_codeEnd (r : StopReason) : (s.stop r).codeEnd = s.codeEnd := rfl
@[simp] theorem State.stop_mem (r : StopReason) : (s.stop r).mem = s.mem := rfl
@[simp] theorem State.stop_diags (r : StopReason) : (s.stop r).diags = s.diags := rfl
@[simp] theorem State.stop_output (r : StopReason) : (s.stop r).output = s.output := rfl
@[simp] theorem State.stop_input (r : StopReason) : (s.stop r).input = s.input := rfl
@[simp] theorem State.stop_stopReason (r : StopReason) : (s.stop r).stopReason = some r := rfl
@[simp] theorem State.stop_phase (r : StopReason) : (s.stop r).phase = s.phase := rfl
@[simp] theorem State.stop_hostCap (r : StopReason) : (s.stop r).hostCap = s.hostCap := rfl
@[simp] theorem State.stop_hostCalls (r : StopReason) : (s.stop r).hostCalls = s.hostCalls := rfl

/-! ### `setFlags` -/

@[simp] theorem State.setFlags_cfg (f : Word) : (s.setFlags f).cfg = s.cfg := rfl
@[simp] theorem State.setFlags_x (f : Word) : (s.setFlags f).x = s.x := rfl
@[simp] theorem State.setFlags_ip (f : Word) : (s.setFlags f).ip = s.ip := rfl
@[simp] theorem State.setFlags_flags (f : Word) : (s.setFlags f).flags = f := rfl
@[simp] theorem State.setFlags_running (f : Word) : (s.setFlags f).running = s.running := rfl
@[simp] theorem State.setFlags_ivt (f : Word) : (s.setFlags f).ivt = s.ivt := rfl
@[simp] theorem State.setFlags_codeEnd (f : Word) : (s.setFlags f).codeEnd = s.codeEnd := rfl
@[simp] theorem State.setFlags_mem (f : Word) : (s.setFlags f).mem = s.mem := rfl
@[simp] theorem State.setFlags_diags (f : Word) : (s.setFlags f).diags = s.diags := rfl
@[simp] theorem State.setFlags_output (f : Word) : (s.setFlags f).output = s.output := rfl
@[simp] theorem State.setFlags_input (f : Word) : (s.setFlags f).input = s.input := rfl
@[simp] theorem State.setFlags_stopReason (f : Word) : (s.setFlags f).stopReason = s.stopReason := rfl
@[simp] theorem State.setFlags_phase (f : Word) : (s.setFlags f).phase = s.phase := rfl
@[simp] theorem State.setFlags_hostCap (f : Word) : (s.setFlags f).hostCap = s.hostCap := rfl
@[simp] theorem State.setFlags_hostCalls (f : Word) : (s.setFlags f).hostCalls = s.hostCalls := rfl

/-! ### `useTurn` -/

@[simp] theorem State.useTurn_cfg : (s.useTurn).cfg = s.cfg := rfl
@[simp] theorem State.useTurn_x : (s.useTurn).x = s.x := rfl
@[simp] theorem State.useTurn_ip : (s.useTurn).ip = s.ip := rfl
@[simp] theorem State.useTurn_flags : (s.useTurn).flags = s.flags := rfl
@[simp] theorem State.useTurn_running : (s.useTurn).running = s.running := rfl
@[simp] theorem State.useTurn_ivt : (s.useTurn).ivt = s.ivt := rfl
@[simp] theorem State.useTurn_codeEnd : (s.useTurn).codeEnd = s.codeEnd := rfl
@[simp] theorem State.useTurn_mem : (s.useTurn).mem = s.mem := rfl
@[simp] theorem State.useTurn_diags : (s.useTurn).diags = s.diags := rfl
@[simp] theorem State.useTurn_output : (s.useTurn).output = s.output := rfl
@[simp] theorem State.useTurn_input : (s.useTurn).input = s.input := rfl
@[simp] theorem State.useTurn_stopReason : (s.useTurn).stopReason = s.stopReason := rfl
@[simp] theorem State.useTurn_phase : (s.useTurn).phase = s.phase := rfl
@[simp] theorem State.useTurn_hostCap : (s.useTurn).hostCap = s.hostCap.map (· - 1) := rfl
@[simp] theorem State.useTurn_hostCalls : (s.useTurn).hostCalls = s.hostCalls := rfl

/-! ### `raise`: a record and a stop -/

@[simp] theorem State.raise_cfg (info : UndefinedInfo) : (s.raise info).cfg = s.cfg := rfl
@[simp] theorem State.raise_x (info : UndefinedInfo) : (s.raise info).x = s.x := rfl
@[simp] theorem State.raise_ip (info : UndefinedInfo) : (s.raise info).ip = s.ip := rfl
@[simp] theorem State.raise_flags (info : UndefinedInfo) : (s.raise info).flags = s.flags := rfl
@[simp] theorem State.raise_running (info : UndefinedInfo) : (s.raise info).running = s.running := rfl
@[simp] theorem State.raise_ivt (info : UndefinedInfo) : (s.raise info).ivt = s.ivt := rfl
@[simp] theorem State.raise_codeEnd (info : UndefinedInfo) : (s.raise info).codeEnd = s.codeEnd := rfl
@[simp] theorem State.raise_mem (info : UndefinedInfo) : (s.raise info).mem = s.mem := rfl
@[simp] theorem State.raise_diags (info : UndefinedInfo) : (s.raise info).diags = s.diags ++ [.undefinedOperand info] := rfl
@[simp] theorem State.raise_output (info : UndefinedInfo) : (s.raise info).output = s.output := rfl
@[simp] theorem State.raise_input (info : UndefinedInfo) : (s.raise info).input = s.input := rfl
@[simp] theorem State.raise_stopReason (info : UndefinedInfo) : (s.raise info).stopReason = some (.undefinedOperand info) := rfl
@[simp] theorem State.raise_phase (info : UndefinedInfo) : (s.raise info).phase = s.phase := rfl
@[simp] theorem State.raise_hostCap (info : UndefinedInfo) : (s.raise info).hostCap = s.hostCap := rfl
@[simp] theorem State.raise_hostCalls (info : UndefinedInfo) : (s.raise info).hostCalls = s.hostCalls := rfl

/-! ### Readings through accessors -/

@[simp] theorem State.reg_eq (c : RegCode) : s.reg c = s.x.get c := rfl
@[simp] theorem State.sp_eq : s.sp = s.x.get s.cfg.spCode := rfl
@[simp] theorem State.byteAt_eq (a : Nat) : s.byteAt a = Memory.get s.mem a := rfl

/-- Two stops in a row leave the second. -/
@[simp] theorem State.stop_stop (r q : StopReason) : (s.stop r).stop q = s.stop q := rfl

/-- `ip` written twice holds the second value. -/
@[simp] theorem State.setIp_setIp (t u : Word) : (s.setIp t).setIp u = s.setIp u := rfl

end Sys2Proof.Machine
end

