-- ==== Sys2Proof/Laws/Ops.lean ====
section
/-! SUPPORT. One lemma for each shared operation that says once everything it does; provers cite these instead of
unfolding the operation. -/

namespace Sys2Proof.Machine

/-! ### Fetch -/

theorem add_one_add_ofNat (a : Word) (n : Nat) : a + 1#32 + BitVec.ofNat 32 n = a + BitVec.ofNat 32 (n + 1) := by
  rw [BitVec.add_assoc, ← BitVec.ofNat_add, Nat.add_comm]

/-- The records of consuming one more byte first. -/
theorem State.fetchReports_succ (s : State) (n : Nat) :
    s.fetchReports (n + 1) =
      (if s.cfg.memSize ≤ s.ip.toNat then [.memoryFault .fetch s.ip 1] else []) ++
        (s.setIp (s.ip + 1)).fetchReports n := by
  unfold State.fetchReports
  rw [List.range_succ_eq_map, List.filter_cons, List.filter_map]
  by_cases h : s.cfg.memSize ≤ s.ip.toNat <;>
    simp [h, Function.comp_def, add_one_add_ofNat]

theorem State.fetchReports_congr {s t : State} (hip : t.ip = s.ip) (hcfg : t.cfg = s.cfg) (n : Nat) :
    t.fetchReports n = s.fetchReports n := by
  unfold State.fetchReports
  rw [hip, hcfg]

/-- No record is made when the bytes lie in the buffer. -/
theorem State.fetchReports_of_inBuffer {s : State} {n : Nat} (h : s.ip.toNat + n ≤ s.cfg.memSize)
    (hm : s.cfg.memSize ≤ 2 ^ 32) : s.fetchReports n = [] := by
  unfold State.fetchReports
  rw [List.map_eq_nil_iff, List.filter_eq_nil_iff]
  intro k hk
  have hk' := List.mem_range.1 hk
  have : (s.ip + BitVec.ofNat 32 k).toNat = s.ip.toNat + k := by
    rw [BitVec.toNat_add, BitVec.toNat_ofNat]
    omega
  simp [this]
  omega

/-- Consuming `n` bytes advances `ip` by `n`, appends the fetch records, and changes nothing else. -/
theorem State.consume_eq (n : Nat) (s : State) :
    s.consume n = { s with ip := s.ip + BitVec.ofNat 32 n, diags := s.diags ++ s.fetchReports n } := by
  induction n generalizing s with
  | zero => simp [State.consume, State.fetchReports]
  | succ n ih =>
    rw [State.consume, ih, State.fetchReports_succ]
    unfold State.consumeByte
    by_cases h : s.ip.toNat < s.cfg.memSize
    · have h' : ¬ s.cfg.memSize ≤ s.ip.toNat := by omega
      simp only [h, h', if_true, if_false, List.nil_append]
      simp [State.setIp, add_one_add_ofNat, State.fetchReports]
    · have h' : s.cfg.memSize ≤ s.ip.toNat := by omega
      simp only [h, h', if_true, if_false]
      simp [State.setIp, State.report, add_one_add_ofNat, State.fetchReports]

theorem State.consumeByte_eq (s : State) :
    s.consumeByte = { s with ip := s.ip + 1, diags := s.diags ++ s.fetchReports 1 } :=
  State.consume_eq 1 s

/-! ### Bounded accesses -/

/-- `MemRead` of a word: the operand value and the records of the access; nothing else changes. -/
theorem State.memRead_word (s : State) (a : Word) :
    s.memRead .word a =
      (s.operandValue (.mem a), { s with diags := s.diags ++ s.readReports (.mem a) }) := by
  unfold State.memRead State.operandValue State.readReports State.inBuffer
  by_cases h : a.toNat + 4 ≤ s.cfg.memSize <;> simp [Width.bytes, h, State.report]

/-- `MemWrite` of a word: the written memory and the records of the access; nothing else changes. -/
theorem State.memWrite_word (s : State) (a v : Word) :
    s.memWrite .word a v =
      { s with mem := s.writtenMem (.mem a) v, diags := s.diags ++ s.writeReports (.mem a) } := by
  unfold State.memWrite State.writtenMem State.writeReports State.inBuffer
  by_cases h : a.toNat + 4 ≤ s.cfg.memSize <;> simp [Width.bytes, valueBytes, h, State.report]

/-! ### The stack -/

/-- A push: SP down by 4, the word written there, the records of the write. -/
theorem State.push_eq (s : State) (v : Word) :
    s.push v =
      { s with
        x := s.x.set s.cfg.spCode (s.x.get s.cfg.spCode - 4)
        mem := s.writtenMem (.mem (s.x.get s.cfg.spCode - 4)) v
        diags := s.diags ++ s.writeReports (.mem (s.x.get s.cfg.spCode - 4)) } := by
  simp only [State.push, State.memWrite_word]
  rfl

/-- A pop: the word at SP, SP up by 4, the records of the read. -/
theorem State.pop_eq (s : State) :
    s.pop =
      (s.operandValue (.mem (s.x.get s.cfg.spCode)),
        { s with
          x := s.x.set s.cfg.spCode (s.x.get s.cfg.spCode + 4)
          diags := s.diags ++ s.readReports (.mem (s.x.get s.cfg.spCode)) }) := by
  simp only [State.pop, State.memRead_word]
  rfl

/-! ### Reads of memory after an operand is written -/

/-- Every byte of memory after a value is written to an operand: the 4 bytes of a Memory destination inside the
buffer, and every other byte as before. -/
theorem State.get_writtenMem (s : State) (o : Operand) (v : Word) (b : Nat) :
    Memory.get (s.writtenMem o v) b =
      match o with
      | .mem a =>
        if a.toNat + 4 ≤ s.cfg.memSize ∧ a.toNat ≤ b ∧ b < a.toNat + 4 then byteOf (b - a.toNat) v
        else Memory.get s.mem b
      | .reg _ | .imm _ | .unknown => Memory.get s.mem b := by
  cases o with
  | mem a =>
    simp only [State.writtenMem]
    by_cases h : a.toNat + 4 ≤ s.cfg.memSize
    · rw [if_pos h, Memory.get_putBytes, length_le32Bytes]
      simp only [h, true_and]
      by_cases hb : a.toNat ≤ b ∧ b < a.toNat + 4
      · have hk : b - a.toNat = 0 ∨ b - a.toNat = 1 ∨ b - a.toNat = 2 ∨ b - a.toNat = 3 := by omega
        rw [if_pos hb, if_pos hb]
        rcases hk with hk | hk | hk | hk <;> rw [hk] <;> rfl
      · rw [if_neg hb, if_neg hb]
    · simp [h]
  | reg c => rfl
  | imm w => rfl
  | unknown => rfl

/-- The canonical form after a value is written to an operand. -/
theorem State.wf_writtenMem {s : State} (h : s.memWf = true) (o : Operand) (v : Word) :
    Memory.wfBelow s.cfg.memSize (s.writtenMem o v) = true := by
  cases o with
  | mem a =>
    simp only [State.writtenMem]
    split
    · exact Memory.wfBelow_putBytes _ h (by simpa using ‹a.toNat + 4 ≤ s.cfg.memSize›)
    · exact h
  | reg c => exact h
  | imm w => exact h
  | unknown => exact h

/-- A word written inside the buffer and read back. -/
theorem State.valueAt_putBytes (s : State) (a : Nat) (v : Word) :
    State.valueAt { s with mem := Memory.putBytes s.mem a (le32Bytes v) } .word a = v := by
  simpa [State.valueAt] using Memory.word_putBytes s.mem a v

end Sys2Proof.Machine
end

