-- ==== Sys2Proof/Laws/Operands.lean ====
section
/-! SUPPORT. The stages of an instruction: what each hands on, and when it ends the instruction. -/

namespace Sys2Proof.Machine

/-! ### The unpacker -/

theorem unpack_unknown (cfg : Config) (p : Word) : unpack cfg ⟨0x00, p⟩ = .ok .unknown := by
  simp [unpack]

theorem unpack_reg (cfg : Config) (p : Word) :
    unpack cfg ⟨0x01, p⟩ = (decodeReg cfg (byteOf 0 p)).map Operand.reg := by
  simp [unpack]

theorem unpack_imm (cfg : Config) (p : Word) : unpack cfg ⟨0x02, p⟩ = .ok (.imm p) := by
  simp [unpack]

theorem unpack_mem (cfg : Config) (p : Word) : unpack cfg ⟨0x03, p⟩ = .ok (.mem p) := by
  simp [unpack]

theorem decodeReg_toByte (cfg : Config) (c : RegCode) : decodeReg cfg c.toByte = .ok c := by
  simp [decodeReg]

theorem decodeReg_ok {cfg : Config} {b : Byte} {c : RegCode} (h : decodeReg cfg b = .ok c) : c.toByte = b := by
  unfold decodeReg at h
  cases hb : RegCode.ofByte? b with
  | none =>
    rw [hb] at h
    cases hr : cfg.badReg
    rw [hr] at h
    cases h
  | some d =>
    rw [hb] at h
    cases h
    exact RegCode.toByte_of_ofByte? hb

/-! ### Stages that hand on -/

theorem State.withOperand_ok {s : State} {o : TaggedOperand} {op : Operand} (h : unpack s.cfg o = .ok op)
    (rest : Operand → State → Result) : s.withOperand o rest = rest op (s.consume 5) := by
  have hc : (s.consume operandBytes).cfg = s.cfg := by rw [State.consume_eq]
  simp only [State.withOperand, hc, h]
  rfl

theorem State.withOperand_error {s : State} {o : TaggedOperand} {info : UndefinedInfo}
    (h : unpack s.cfg o = .error info) (rest : Operand → State → Result) :
    s.withOperand o rest = .next ((s.consume 5).raise info) := by
  have hc : (s.consume operandBytes).cfg = s.cfg := by rw [State.consume_eq]
  simp only [State.withOperand, hc, h]
  rfl

theorem State.withReg_ok {s : State} {b : Byte} {c : RegCode} (h : decodeReg s.cfg b = .ok c)
    (rest : RegCode → State → Result) : s.withReg b rest = rest c (s.consume 1) := by
  have hc : (s.consume 1).cfg = s.cfg := by rw [State.consume_eq]
  simp only [State.withReg, hc, h]

theorem State.withReg_error {s : State} {b : Byte} {info : UndefinedInfo} (h : decodeReg s.cfg b = .error info)
    (rest : RegCode → State → Result) : s.withReg b rest = .next ((s.consume 1).raise info) := by
  have hc : (s.consume 1).cfg = s.cfg := by rw [State.consume_eq]
  simp only [State.withReg, hc, h]

/-- Reading a readable operand hands on its value; the records of the read are made, and nothing else changes. -/
theorem State.withValue_readable {s : State} {o : Operand} (h : s.canRead o = true)
    (rest : Word → State → Result) :
    s.withValue o rest = rest (s.operandValue o) { s with diags := s.diags ++ s.readReports o } := by
  cases o with
  | reg c => simp [State.withValue, State.operandValue, State.readReports]
  | imm v => simp [State.withValue, State.operandValue, State.readReports]
  | mem a => simp [State.withValue, State.memRead_word]
  | unknown =>
    have hz : s.cfg.unknownSrc = .zero := by simpa [State.canRead] using h
    simp [State.withValue, State.operandValue, State.readReports, hz]

/-- Reading an operand that is not readable ends the run. -/
theorem State.withValue_unreadable {s : State} {o : Operand} (h : s.canRead o = false)
    (rest : Word → State → Result) : s.withValue o rest = .next (s.raise (.tag 0x00)) := by
  cases o with
  | unknown =>
    have hf : s.cfg.unknownSrc = .fault := by
      cases hu : s.cfg.unknownSrc with
      | zero => simp [State.canRead, hu] at h
      | fault => rfl
    simp [State.withValue, hf, Operand.tag]
  | reg c => simp [State.canRead] at h
  | imm v => simp [State.canRead] at h
  | mem a => simp [State.canRead] at h

/-- Writing a writable operand. -/
theorem State.writeOperand_writable {s : State} {o : Operand} (h : s.canWrite o = true) (v : Word) :
    s.writeOperand o v =
      { s with x := s.writtenRegs o v, mem := s.writtenMem o v, diags := s.diags ++ s.writeReports o } := by
  cases o with
  | reg c => simp [State.writeOperand, State.setReg, State.writtenRegs, State.writtenMem, State.writeReports]
  | mem a => simp [State.writeOperand, State.memWrite_word, State.writtenRegs]
  | imm w =>
    have hd : s.cfg.destNonwritable = .drop := by simpa [State.canWrite] using h
    simp [State.writeOperand, State.writeNonwritable, hd, State.report, State.writtenRegs, State.writtenMem,
      State.writeReports, Operand.tag]
  | unknown =>
    have hd : s.cfg.destNonwritable = .drop := by simpa [State.canWrite] using h
    simp [State.writeOperand, State.writeNonwritable, hd, State.report, State.writtenRegs, State.writtenMem,
      State.writeReports, Operand.tag]

/-- Writing an operand that is not writable ends the run. -/
theorem State.writeOperand_unwritable {s : State} {o : Operand} (h : s.canWrite o = false) (v : Word) :
    s.writeOperand o v = s.raise (.destTag o.tag) := by
  have hf : s.cfg.destNonwritable = .fault := by
    cases hd : s.cfg.destNonwritable with
    | drop => cases o <;> simp [State.canWrite, hd] at h
    | fault => rfl
  cases o with
  | imm w => simp [State.writeOperand, State.writeNonwritable, hf]
  | unknown => simp [State.writeOperand, State.writeNonwritable, hf]
  | reg c => simp [State.canWrite] at h
  | mem a => simp [State.canWrite] at h

/-! ### Fields consumed in stages

`pastFields` is the normal form of a state between the fetch of an instruction's fields and its effect: what an
operand is worth, and what reading or writing it gives, does not depend on the fields consumed before. -/

theorem State.consume_pastFields (s : State) (n : Nat) : s.consume n = s.pastFields n := State.consume_eq n s

theorem State.consume_add (m n : Nat) (s : State) : s.consume (m + n) = (s.consume m).consume n := by
  induction m generalizing s with
  | zero => simp [State.consume]
  | succ m ih =>
    rw [Nat.succ_add]
    exact ih _

theorem State.fetchReports_add (s : State) (m n : Nat) :
    s.fetchReports (m + n) = s.fetchReports m ++ (s.pastFields m).fetchReports n := by
  have h := congrArg State.diags (State.consume_add m n s)
  simp only [State.consume_eq, List.append_assoc, List.append_cancel_left_eq] at h
  exact h

/-- Fields consumed in two stages are the fields consumed at once. -/
theorem State.pastFields_pastFields (s : State) (m n : Nat) :
    (s.pastFields m).pastFields n = s.pastFields (m + n) := by
  simp only [State.pastFields, State.fetchReports_add, List.append_assoc]
  congr 1
  simp [BitVec.add_assoc, BitVec.ofNat_add]

section normalForms
variable (s : State) (n : Nat) (ds : List Diagnostic) (o : Operand) (v : Word)

theorem State.operandValue_pastFields : (s.pastFields n).operandValue o = s.operandValue o := by cases o <;> rfl
theorem State.operandValue_diags : ({ s with diags := ds } : State).operandValue o = s.operandValue o := by cases o <;> rfl
theorem State.readReports_pastFields : (s.pastFields n).readReports o = s.readReports o := by cases o <;> rfl
theorem State.readReports_diags : ({ s with diags := ds } : State).readReports o = s.readReports o := by cases o <;> rfl
theorem State.writeReports_pastFields : (s.pastFields n).writeReports o = s.writeReports o := by cases o <;> rfl
theorem State.writeReports_diags : ({ s with diags := ds } : State).writeReports o = s.writeReports o := by cases o <;> rfl
theorem State.canRead_pastFields : (s.pastFields n).canRead o = s.canRead o := by cases o <;> rfl
theorem State.canRead_diags : ({ s with diags := ds } : State).canRead o = s.canRead o := by cases o <;> rfl
theorem State.canWrite_pastFields : (s.pastFields n).canWrite o = s.canWrite o := by cases o <;> rfl
theorem State.canWrite_diags : ({ s with diags := ds } : State).canWrite o = s.canWrite o := by cases o <;> rfl
theorem State.writtenRegs_pastFields : (s.pastFields n).writtenRegs o v = s.writtenRegs o v := by cases o <;> rfl
theorem State.writtenRegs_diags : ({ s with diags := ds } : State).writtenRegs o v = s.writtenRegs o v := by cases o <;> rfl
theorem State.writtenMem_pastFields : (s.pastFields n).writtenMem o v = s.writtenMem o v := by cases o <;> rfl
theorem State.writtenMem_diags : ({ s with diags := ds } : State).writtenMem o v = s.writtenMem o v := by cases o <;> rfl

end normalForms

/-- Raising after the fields up to `n` are consumed and the records `ds` are made. -/
theorem State.raise_pastFields (s : State) (n : Nat) (ds : List Diagnostic) (info : UndefinedInfo) :
    ({ s.pastFields n with diags := (s.pastFields n).diags ++ ds } : State).raise info =
      s.stoppedUndefined n ds info := by
  simp [State.raise, State.report, State.stop, State.stoppedUndefined, State.pastFields]

theorem State.raise_consume (s : State) (n : Nat) (info : UndefinedInfo) :
    (s.consume n).raise info = s.stoppedUndefined n [] info := by
  rw [State.consume_eq]
  simp [State.raise, State.report, State.stop, State.stoppedUndefined]

/-- Two operands that decode are handed on in the state past both. -/
theorem State.withOperands_ok {s : State} {d src : TaggedOperand} {od os : Operand}
    (hd : unpack s.cfg d = .ok od) (hs : unpack s.cfg src = .ok os) (rest : Operand → Operand → State → Result) :
    (s.withOperand d fun od s => s.withOperand src fun os s => rest od os s) = rest od os (s.pastFields 10) := by
  rw [State.withOperand_ok hd, State.consume_pastFields, State.withOperand_ok (s := s.pastFields 5) hs,
    State.consume_pastFields, State.pastFields_pastFields]

/-- A word written to memory inside the buffer is the value of the Memory operand there, in any state that has the
same 4 bytes. -/
theorem State.operandValue_of_written {s u : State} {a v : Word} (hin : a.toNat + 4 ≤ s.cfg.memSize)
    (hc : u.cfg = s.cfg)
    (h : ∀ b, a.toNat ≤ b → b < a.toNat + 4 → u.byteAt b = Memory.get (s.writtenMem (.mem a) v) b) :
    u.operandValue (.mem a) = v := by
  simp only [State.operandValue, hc, hin, if_true, State.valueAt]
  rw [h _ (by omega) (by omega), h _ (by omega) (by omega), h _ (by omega) (by omega), h _ (by omega) (by omega)]
  simp only [State.get_writtenMem, hin]
  simp

end Sys2Proof.Machine
end

