-- ==== Sys2Proof/Laws/Exec.lean ====
section
/-! SUPPORT. Said once: what an instruction can do. Every state an instruction answers is reached from the state it
began in by a chain of `Update`s, so a property that every `Update` keeps is one that every instruction keeps. -/

namespace Sys2Proof.Machine

/-- One elementary change of the state. A write of memory lies wholly in the buffer; the flags word is only ever
written with Z and N and zero reserved bits; a record is never the assembler's. -/
inductive Update : State → State → Prop where
  | reg (s : State) (c : RegCode) (v : Word) : Update s (s.setReg c v)
  | ip (s : State) (t : Word) : Update s (s.setIp t)
  | report (s : State) (d : Diagnostic) (h : 3 ≤ diagnosticCode d) : Update s (s.report d)
  | out (s : State) (bytes : List Byte) : Update s (s.out bytes)
  | stop (s : State) (r : StopReason) : Update s (s.stop r)
  | mem (s : State) (a : Nat) (bytes : List Byte) (h : a + bytes.length ≤ s.cfg.memSize) :
      Update s { s with mem := Memory.putBytes s.mem a bytes }
  | flags (s : State) (z n : Bool) : Update s (s.setFlags (flagsWord z n))
  | halt (s : State) : Update s { s with running := false }
  | line (s : State) (l : Text) (rest : List Text) (h : s.input = l :: rest) : Update s { s with input := rest }
  | call (s : State) : Update s { s with hostCalls := s.hostCalls + 1 }

/-- A chain of elementary changes. -/
abbrev Updates : State → State → Prop := Relation.ReflTransGen Update

theorem Update.chain {s t : State} (h : Update s t) : Updates s t := Relation.ReflTransGen.single h

/-- A result that, if it is a next state, is reached from `s` by elementary changes. -/
def Result.from (s : State) (r : Result) : Prop := ∀ t, r = .next t → Updates s t

theorem Result.from_next {s t : State} (h : Updates s t) : Result.from s (.next t) := by
  intro u hu
  cases hu
  exact h

theorem Result.from_trans {s t : State} {r : Result} (h : Updates s t) (hr : Result.from t r) : Result.from s r :=
  fun u hu => h.trans (hr u hu)

theorem Result.from_fault {s : State} {f : Fault} : Result.from s (.fault f) := by
  intro t ht
  cases ht

/-! ### The operations are chains of elementary changes -/

theorem State.updates_consumeByte (s : State) : Updates s s.consumeByte := by
  unfold State.consumeByte
  by_cases h : s.ip.toNat < s.cfg.memSize
  · simp only [h, if_true]
    exact (Update.ip s _).chain
  · simp only [h, if_false]
    exact (Update.report s _ (by simp [diagnosticCode])).chain.tail (Update.ip _ _)

theorem State.updates_consume (n : Nat) (s : State) : Updates s (s.consume n) := by
  induction n generalizing s with
  | zero => exact .refl
  | succ n ih => exact s.updates_consumeByte.trans (ih _)

theorem State.updates_raise (s : State) (info : UndefinedInfo) : Updates s (s.raise info) :=
  (Update.report s _ (by simp [diagnosticCode])).chain.tail (Update.stop _ _)

theorem State.updates_memRead (s : State) (w : Width) (a : Word) : Updates s (s.memRead w a).2 := by
  unfold State.memRead
  split
  · exact .refl
  · exact (Update.report s _ (by simp [diagnosticCode])).chain

theorem length_valueBytes (w : Width) (v : Word) : (valueBytes w v).length = Width.bytes w := by
  cases w <;> rfl

theorem State.updates_memWrite (s : State) (w : Width) (a v : Word) : Updates s (s.memWrite w a v) := by
  unfold State.memWrite
  split
  · refine (Update.mem s a.toNat _ ?_).chain
    rw [length_valueBytes]
    simpa [State.inBuffer] using ‹s.inBuffer a (Width.bytes w) = true›
  · exact (Update.report s _ (by simp [diagnosticCode])).chain

theorem State.updates_push (s : State) (v : Word) : Updates s (s.push v) :=
  (Update.reg s _ _).chain.trans (State.updates_memWrite _ _ _ _)

theorem State.updates_pop (s : State) : Updates s s.pop.2 :=
  (s.updates_memRead .word s.sp).tail (Update.reg _ _ _)

theorem State.updates_writeNonwritable (s : State) (tag : Byte) : Updates s (s.writeNonwritable tag) := by
  unfold State.writeNonwritable
  split
  · exact (Update.report s _ (by simp [diagnosticCode])).chain
  · exact s.updates_raise _

theorem State.updates_writeOperand (s : State) (o : Operand) (v : Word) : Updates s (s.writeOperand o v) := by
  cases o with
  | reg c => exact (Update.reg s c v).chain
  | mem a => exact s.updates_memWrite .word a v
  | imm w => exact s.updates_writeNonwritable _
  | unknown => exact s.updates_writeNonwritable _

theorem State.updates_handlerAct (s : State) (act : HandlerAct) : Updates s (s.handlerAct act) := by
  cases act with
  | setReg c v => exact (Update.reg s c v).chain
  | load w a => exact s.updates_memRead w a
  | store w a v => exact s.updates_memWrite w a v
  | print bytes => exact (Update.out s bytes).chain

theorem State.updates_handlerActs (acts : List HandlerAct) (s : State) : Updates s (s.handlerActs acts) := by
  induction acts generalizing s with
  | nil => exact .refl
  | cons act acts ih => exact (s.updates_handlerAct act).trans (ih _)

theorem State.updates_afterHandler (s : State) (run : HandlerRun) : Updates s (s.afterHandler run) :=
  (Update.call s).chain.trans (State.updates_handlerActs _ _)

theorem State.from_handlerOutcome (s : State) (e : HandlerEnd) : Result.from s (s.handlerOutcome e) := by
  cases e with
  | ret => exact Result.from_next .refl
  | exit => exact Result.from_next (Update.stop s _).chain
  | blocks => exact Result.from_fault

theorem State.from_hostCall (s : State) (h : Handler) : Result.from s (s.hostCall h) :=
  Result.from_trans (s.updates_afterHandler _) (State.from_handlerOutcome _ _)

/-! ### The stages of an instruction -/

theorem State.from_withOperand (s : State) (o : TaggedOperand) {rest : Operand → State → Result}
    (h : ∀ op t, Result.from t (rest op t)) : Result.from s (s.withOperand o rest) := by
  unfold State.withOperand
  refine Result.from_trans (s.updates_consume operandBytes) ?_
  cases hu : unpack (s.consume operandBytes).cfg o with
  | ok op => simpa only [hu] using h op _
  | error info => simpa only [hu] using Result.from_next (State.updates_raise _ info)

theorem State.from_withReg (s : State) (b : Byte) {rest : RegCode → State → Result}
    (h : ∀ c t, Result.from t (rest c t)) : Result.from s (s.withReg b rest) := by
  unfold State.withReg
  refine Result.from_trans (s.updates_consume 1) ?_
  cases hd : decodeReg (s.consume 1).cfg b with
  | ok c => simpa only [hd] using h c _
  | error info => simpa only [hd] using Result.from_next (State.updates_raise _ info)

theorem State.from_withValue (s : State) (o : Operand) {rest : Word → State → Result}
    (h : ∀ v t, Result.from t (rest v t)) : Result.from s (s.withValue o rest) := by
  cases o with
  | reg c => exact h _ _
  | imm v => exact h _ _
  | mem a => exact Result.from_trans (s.updates_memRead .word a) (h _ _)
  | unknown =>
    unfold State.withValue
    cases hu : s.cfg.unknownSrc with
    | zero => simpa only [hu] using h 0 s
    | fault => simpa only [hu] using Result.from_next (s.updates_raise _)

theorem from_binaryOp (f : Word → Word → Word) (d src : TaggedOperand) (s : State) :
    Result.from s (binaryOp f d src s) :=
  s.from_withOperand d fun _ s => s.from_withOperand src fun _ s => s.from_withValue _ fun _ s =>
    s.from_withValue _ fun _ s => Result.from_next (s.updates_writeOperand _ _)

theorem from_registerOp (f : Word → Word) (r : Byte) (s : State) : Result.from s (registerOp f r s) :=
  s.from_withReg r fun c s => Result.from_next (Update.reg s c _).chain

/-! ### Every instruction -/

theorem from_execMov (d src : TaggedOperand) (s : State) : Result.from s (execMov d src s) :=
  s.from_withOperand d fun _ s => s.from_withOperand src fun _ s => s.from_withValue _ fun _ s =>
    Result.from_next (s.updates_writeOperand _ _)

theorem from_execCmp (d src : TaggedOperand) (s : State) : Result.from s (execCmp d src s) :=
  s.from_withOperand d fun _ s => s.from_withOperand src fun _ s => s.from_withValue _ fun _ s =>
    s.from_withValue _ fun _ s => Result.from_next (Update.flags s _ _).chain

theorem from_execJmp (target : Word) (s : State) : Result.from s (execJmp target s) :=
  Result.from_next ((s.updates_consume addressBytes).tail (Update.ip _ _))

theorem from_execJe (target : Word) (s : State) : Result.from s (execJe target s) := by
  refine Result.from_next ((s.updates_consume addressBytes).trans ?_)
  split
  · exact (Update.ip _ _).chain
  · exact .refl

theorem from_execJne (target : Word) (s : State) : Result.from s (execJne target s) := by
  refine Result.from_next ((s.updates_consume addressBytes).trans ?_)
  split
  · exact .refl
  · exact (Update.ip _ _).chain

theorem from_execCall (target : Word) (s : State) : Result.from s (execCall target s) :=
  Result.from_next (((s.updates_consume addressBytes).trans (State.updates_push _ _)).tail (Update.ip _ _))

theorem from_execRet (s : State) : Result.from s (execRet s) :=
  Result.from_next (s.updates_pop.tail (Update.ip _ _))

theorem from_execPush (r : Byte) (s : State) : Result.from s (execPush r s) :=
  s.from_withReg r fun _ s => Result.from_next (s.updates_push _)

theorem from_execPop (r : Byte) (s : State) : Result.from s (execPop r s) :=
  s.from_withReg r fun _ s => Result.from_next (s.updates_pop.tail (Update.reg _ _ _))

theorem from_execInt (v : Byte) (s : State) : Result.from s (execInt v s) := by
  unfold execInt
  refine Result.from_trans (s.updates_consume 1) ?_
  cases h : Ivt.get (s.consume 1).ivt v with
  | none => simpa only [h] using Result.from_next (Update.report _ _ (by simp [diagnosticCode])).chain
  | some g => simpa only [h] using State.from_hostCall _ g

theorem from_execInput (r : Byte) (s : State) : Result.from s (execInput r s) := by
  refine s.from_withReg r fun c s => ?_
  have hbad : ∀ (t : State) (l : Text), Updates t ((t.setReg c 0).report (.inputFormatError l)) := fun t l =>
    (Update.reg t c 0).chain.tail (Update.report _ _ (by simp [diagnosticCode]))
  cases h : s.input with
  | nil =>
    unfold State.inputAtEnd
    cases s.cfg.inputEof with
    | stuck => exact Result.from_fault
    | zero => exact Result.from_next (hbad s [])
  | cons line rest =>
    refine Result.from_next ((Update.line s line rest h).chain.trans ?_)
    unfold State.inputValue
    split
    · exact (Update.reg _ _ _).chain
    · exact hbad _ _

theorem from_execPrint (o : TaggedOperand) (s : State) : Result.from s (execPrint o s) := by
  refine s.from_withOperand o fun op s => ?_
  have hnum : Result.from s (s.withValue op fun v s => .next (s.out (numberText v))) :=
    s.from_withValue op fun _ s => Result.from_next (Update.out s _).chain
  cases op with
  | imm a => exact Result.from_next (Update.out s _).chain
  | reg c => exact hnum
  | mem a => exact hnum
  | unknown => exact hnum

/-- Whatever next state an instruction answers is reached by elementary changes. -/
theorem exec_updates (i : Instr) {s t : State} (h : exec i s = .next t) : Updates s t := by
  cases i with
  | mov d src => exact from_execMov d src s t h
  | add d src => exact from_binaryOp _ d src s t h
  | sub d src => exact from_binaryOp _ d src s t h
  | cmp d src => exact from_execCmp d src s t h
  | jmp a => exact from_execJmp a s t h
  | je a => exact from_execJe a s t h
  | jne a => exact from_execJne a s t h
  | call a => exact from_execCall a s t h
  | ret => exact from_execRet s t h
  | push r => exact from_execPush r s t h
  | pop r => exact from_execPop r s t h
  | inc r => exact from_registerOp (fun v => v + 1) r s t h
  | dec r => exact from_registerOp (fun v => v - 1) r s t h
  | int v => exact from_execInt v s t h
  | nop => exact Result.from_next .refl t h
  | hlt => exact Result.from_next (Update.halt s).chain t h
  | and d src => exact from_binaryOp _ d src s t h
  | or d src => exact from_binaryOp _ d src s t h
  | xor d src => exact from_binaryOp _ d src s t h
  | input r => exact from_execInput r s t h
  | print o => exact from_execPrint o s t h

end Sys2Proof.Machine
end

