-- ==== Sys2Proof/Laws/Flags.lean ====
section
/-! SUPPORT. The bits of the flags word (R39): Z, N and the reserved zeros. -/

namespace Sys2Proof.Machine

theorem getLsbD_flagsWord (z n : Bool) (k : Nat) :
    (flagsWord z n).getLsbD k = if k = 0 then z else if k = 1 then n else false := by
  rcases k with _ | _ | k
  · cases z <;> cases n <;> decide
  · cases z <;> cases n <;> decide
  · by_cases h : k + 2 < 32
    · have hall : ∀ (z n : Bool) (j : Fin 32), 2 ≤ j.val → (flagsWord z n).getLsbD j.val = false := by decide
      simpa using hall z n ⟨k + 2, h⟩ (by simp)
    · simp [BitVec.getLsbD_of_ge _ _ (Nat.le_of_not_lt h)]

/-- The reserved bits of a flags word CMP writes are 0. -/
theorem reserved_flagsWord (z n : Bool) : (flagsWord z n).extractLsb' 2 30 = 0 := by
  cases z <;> cases n <;> decide

end Sys2Proof.Machine
end

