-- ==== Sys2Proof/Laws/HostOps.lean ====
section
/-! SUPPORT. The host's side: what a valid configuration gives (R10), and when an image fits (R450). -/

namespace Sys2Proof.Machine

/-- The layout of a valid configuration. -/
theorem layout_of_valid {cfg : Config} (h : cfg.valid = true) :
    cfg.codeOrigin < cfg.dataOrigin ∧ cfg.dataOrigin < cfg.memSize ∧ cfg.memSize ≤ 2 ^ 32 := by
  simp only [Config.valid, Config.layoutOk, Bool.and_eq_true, decide_eq_true_eq] at h
  tauto

/-- The opcode map of a valid configuration. -/
theorem injective_of_valid {cfg : Config} (h : cfg.valid = true) : cfg.opc.injective = true := by
  simp only [Config.valid, Bool.and_eq_true] at h
  tauto

/-- An image fits when it meets the two requirements of `load`. -/
theorem imageFits_iff (cfg : Config) (code data : List Byte) :
    imageFits cfg code data = true ↔
      cfg.codeOrigin + code.length ≤ cfg.dataOrigin ∧ cfg.dataOrigin + data.length ≤ cfg.memSize := by
  simp [imageFits]

end Sys2Proof.Machine
end

