-- ==== Sys2Proof/Laws/PerInstr.lean ====
section
/-! SUPPORT. Per instruction: its fields take the bytes its form gives them, and the field decoder reads them back,
whatever follows (R101 to R108). -/

namespace Sys2Proof.Laws.Encoding

/-- The fields of an instruction are as long as its form says, and the decoder of its mnemonic's fields reads them
back. -/
def Statement (i : Instr) : Prop :=
  i.fieldBytes.length + 1 = i.length ∧
    ∀ rest : List Byte, decodeFields i.mnemonic (i.fieldBytes ++ rest) = .ok (i, rest)

theorem readsBinary (mk : TaggedOperand → TaggedOperand → Instr) (d src : TaggedOperand) (rest : List Byte) :
    decodeBinary mk (d.bytes ++ src.bytes ++ rest) = .ok (mk d src, rest) := by
  simp [decodeBinary, TaggedOperand.bytes, le32Bytes]

theorem readsAddress (mk : Word → Instr) (t : Word) (rest : List Byte) :
    decodeAddress mk (le32Bytes t ++ rest) = .ok (mk t, rest) := by
  simp [decodeAddress, le32Bytes]

theorem readsOperand (mk : TaggedOperand → Instr) (o : TaggedOperand) (rest : List Byte) :
    decodeOperand mk (o.bytes ++ rest) = .ok (mk o, rest) := by
  simp [decodeOperand, TaggedOperand.bytes, le32Bytes]

theorem mov (d src : TaggedOperand) : Statement (.mov d src) := ⟨rfl, fun rest => readsBinary .mov d src rest⟩

theorem add (d src : TaggedOperand) : Statement (.add d src) := ⟨rfl, fun rest => readsBinary .add d src rest⟩

theorem sub (d src : TaggedOperand) : Statement (.sub d src) := ⟨rfl, fun rest => readsBinary .sub d src rest⟩

theorem cmp (d src : TaggedOperand) : Statement (.cmp d src) := ⟨rfl, fun rest => readsBinary .cmp d src rest⟩

theorem jmp (t : Word) : Statement (.jmp t) := ⟨rfl, fun rest => readsAddress .jmp t rest⟩

theorem je (t : Word) : Statement (.je t) := ⟨rfl, fun rest => readsAddress .je t rest⟩

theorem jne (t : Word) : Statement (.jne t) := ⟨rfl, fun rest => readsAddress .jne t rest⟩

theorem call (t : Word) : Statement (.call t) := ⟨rfl, fun rest => readsAddress .call t rest⟩

theorem ret : Statement .ret := ⟨rfl, fun _ => rfl⟩

theorem push (r : Byte) : Statement (.push r) := ⟨rfl, fun _ => rfl⟩

theorem pop (r : Byte) : Statement (.pop r) := ⟨rfl, fun _ => rfl⟩

theorem inc (r : Byte) : Statement (.inc r) := ⟨rfl, fun _ => rfl⟩

theorem dec (r : Byte) : Statement (.dec r) := ⟨rfl, fun _ => rfl⟩

theorem int (v : Byte) : Statement (.int v) := ⟨rfl, fun _ => rfl⟩

theorem nop : Statement .nop := ⟨rfl, fun _ => rfl⟩

theorem hlt : Statement .hlt := ⟨rfl, fun _ => rfl⟩

theorem and (d src : TaggedOperand) : Statement (.and d src) := ⟨rfl, fun rest => readsBinary .and d src rest⟩

theorem or (d src : TaggedOperand) : Statement (.or d src) := ⟨rfl, fun rest => readsBinary .or d src rest⟩

theorem xor (d src : TaggedOperand) : Statement (.xor d src) := ⟨rfl, fun rest => readsBinary .xor d src rest⟩

theorem input (r : Byte) : Statement (.input r) := ⟨rfl, fun _ => rfl⟩

theorem print (o : TaggedOperand) : Statement (.print o) := ⟨rfl, fun rest => readsOperand .print o rest⟩

end Sys2Proof.Laws.Encoding
end

