-- ==== Sys2Proof/Laws/Step.lean ====
section
/-! SUPPORT. Said once: what one turn of the run loop can do. -/

namespace Sys2Proof.Machine

/-- A step that answers a next state began in a run that had begun and had not ended; it ended the run by the cap, by
HLT's cleared flag, by the end of the code or by an unassigned opcode, or it ran the decoded instruction. -/
theorem step_cases {s t : State} (h : step s = .next t) :
    s.stopReason = none ∧ s.phase = .started ∧
      ((s.hostCap = some 0 ∧ t = s.stop .capped) ∨
        (s.hostCap ≠ some 0 ∧ s.running = false ∧ t = s.stop .halted) ∨
        (s.hostCap ≠ some 0 ∧ s.running = true ∧ s.codeEnd ≤ s.ip ∧ t = s.stop .endOfCode) ∨
        (s.inLoop ∧ (∃ e, decode s.cfg.opc s.instrBytes = .error e) ∧
          t = (s.afterOpcode.report (.decodeFailure (s.fetchByte s.ip) s.ip)).stop .decodeFailure) ∨
        (s.inLoop ∧ ∃ i rest, decode s.cfg.opc s.instrBytes = .ok (i, rest) ∧ exec i s.afterOpcode = .next t)) := by
  unfold step at h
  cases hs : s.stopReason with
  | some r => simp [hs] at h
  | none =>
    cases hp : s.phase with
    | created => simp [hs, hp] at h
    | loaded => simp [hs, hp] at h
    | started =>
      refine ⟨rfl, rfl, ?_⟩
      simp only [hs, hp] at h
      by_cases hc : s.hostCap = some 0
      · simp only [hc, if_true] at h
        cases h
        exact .inl ⟨hc, rfl⟩
      · by_cases hr : s.running = true
        · by_cases hi : s.codeEnd ≤ s.ip
          · simp only [hc, hr, hi, if_true, if_false, Bool.not_true, Bool.false_eq_true] at h
            cases h
            exact .inr (.inr (.inl ⟨hc, hr, hi, rfl⟩))
          · have hin : s.inLoop := ⟨hs, hp, hc, hr, BitVec.not_le.1 hi⟩
            simp only [hc, hr, hi, if_false, Bool.not_true, Bool.false_eq_true, State.dispatch] at h
            cases hd : decode s.cfg.opc s.instrBytes with
            | ok p =>
              obtain ⟨i, rest⟩ := p
              simp only [hd] at h
              exact .inr (.inr (.inr (.inr ⟨hin, i, rest, rfl, h⟩)))
            | error e =>
              simp only [hd] at h
              cases h
              exact .inr (.inr (.inr (.inl ⟨hin, ⟨e, rfl⟩, rfl⟩)))
        · have hf : s.running = false := by simpa using hr
          simp only [hc, hf, if_true, if_false, Bool.not_false] at h
          cases h
          exact .inr (.inl ⟨hc, hf, rfl⟩)

/-- The state in which an instruction's rule begins, said as a whole. -/
theorem State.afterOpcode_eq (s : State) :
    s.afterOpcode =
      { s with
        ip := s.ip + 1
        diags := s.diags ++ s.fetchReports 1
        hostCap := s.hostCap.map (· - 1) } := by
  unfold State.afterOpcode
  rw [State.consumeByte_eq]
  rfl

end Sys2Proof.Machine
end

