-- ==== Sys2Proof/Tests/Slice0.lean ====
section
/-! SUPPORT. Tests: the checks of WellFormed refuse what they should, the words of the spec's encodings decode, one
step of each instruction gives what 95_test_vectors.md says, a few of its assembler vectors, and for every obligation
with hypotheses a state and operands that meet them, clause by clause.

A test names the row of 95_test_vectors.md its expected result comes from; the others are worked out by hand from the
rule they name. -/

namespace Sys2Proof.Tests

set_option Elab.async false

open Sys2Proof.Machine

/-! ### Helpers -/

/-- The reference parameters, with every OPEN policy at its other value. -/
def strict : Config :=
  { Config.reference with
    unknownSrc := .fault
    destNonwritable := .fault
    badTag := .asUnknown
    multicharDb := .firstByte
    inputEof := .zero }

/-- A small machine: one byte of code, four of data and stack. -/
def tiny : Config := { Config.reference with codeOrigin := 0, dataOrigin := 1, memSize := 5 }

/-- The machine after `load(code, data)` and `run()`, created under `cfg`. -/
def startedOf (cfg : Config) (code data : List Byte) : State :=
  match load code data [] (State.fresh cfg) with
  | .next s =>
    match run s with
    | .next t => t
    | _ => s
  | _ => State.fresh cfg

/-- A fresh machine of 95_test_vectors.md, in its run. -/
def started (code : List Byte) : State := startedOf Config.reference code []

/-- The answer is a next state of which `p` holds. -/
def answers (r : Result) (p : State → Bool) : Bool :=
  match r with
  | .next t => p t
  | .fault _ => false
  | .refused _ => false

/-- The answer is this fault. -/
def faults (r : Result) (f : Fault) : Bool :=
  match r with
  | .fault g => g == f
  | .next _ => false
  | .refused _ => false

/-- The answer is this refusal. -/
def refuses (r : Result) (f : Refusal) : Bool :=
  match r with
  | .refused g => g == f
  | .next _ => false
  | .fault _ => false

/-- The bytes at `ip` decode to this instruction. -/
def decodesTo (s : State) (i : Instr) : Bool :=
  match decode s.cfg.opc s.instrBytes with
  | .ok (k, _) => k == i
  | .error _ => false

/-- The word of memory at an address. -/
def wordAt (s : State) (a : Nat) : Word := s.valueAt .word a

/-- The ACCUMULATOR at a value. -/
def acc (s : State) (v : Word) : State := s.setReg .c1 v

/-! ### WellFormed refuses the ill-formed -/

theorem test_reference_is_valid : Config.reference.valid = true := by decide
theorem test_strict_is_valid : strict.valid = true := by decide

theorem test_opc_not_injective :
    { OpcodeMap.reference with mov := 0x15 }.injective = false ∧
    { Config.reference with opc := { OpcodeMap.reference with mov := 0x15 } }.valid = false := by decide

theorem test_layout_refused :
    { Config.reference with dataOrigin := 0x1000 }.layoutOk = false ∧
    { Config.reference with dataOrigin := 0x10000 }.layoutOk = false ∧
    { Config.reference with memSize := 2 ^ 32 + 1 }.layoutOk = false ∧
    { Config.reference with memSize := 2 ^ 32 }.layoutOk = true := by decide

theorem test_stack_room_refused :
    { Config.reference with memSize := 0x8003 }.stackRoomOk = false ∧
    { Config.reference with memSize := 0x8003 }.valid = false ∧
    { Config.reference with memSize := 0x8004 }.valid = true := by decide

theorem test_regnames_not_injective :
    { Config.reference with regNames := { referenceRegNames with r3 := "REG2".toList } }.regNamesOk = false := by
  decide

theorem test_accumulator_refused :
    { Config.reference with accCode := .c2 }.accumulatorOk = false ∧
    { Config.reference with accCode := .c2 }.valid = false := by decide

theorem test_stack_pointer_refused :
    { Config.reference with spCode := .c1 }.stackPointerOk = false ∧
    { Config.reference with spCode := .c1 }.valid = false := by decide

theorem test_register_byte_refused :
    (Instr.inc 0x00).wellFormed = false ∧ (Instr.push 0x09).wellFormed = false ∧
    (Instr.pop 0x01).wellFormed = true ∧ (Instr.input 0x08).wellFormed = true := by decide

theorem test_operand_refused :
    (TaggedOperand.mk 0x04 0).wellFormed = false ∧ (TaggedOperand.mk 0x00 1).wellFormed = false ∧
    (TaggedOperand.mk 0x01 0).wellFormed = false ∧ (TaggedOperand.mk 0x01 9).wellFormed = false ∧
    (TaggedOperand.mk 0x01 0x101).wellFormed = false ∧ (TaggedOperand.mk 0x01 8).wellFormed = true := by decide

theorem test_instruction_operands_refused :
    (Instr.mov ⟨0x01, 1⟩ ⟨0x04, 0⟩).wellFormed = false ∧ (Instr.cmp ⟨0xFF, 0⟩ ⟨0x02, 0⟩).wellFormed = false ∧
    (Instr.print ⟨0x01, 0x0801⟩).wellFormed = false ∧ (Instr.add ⟨0x02, 7⟩ ⟨0x03, 7⟩).wellFormed = true := by decide

/-! ### Decoding: a word of the spec for each constructor (30_encoding.md R102 to R110; 95_test_vectors.md) -/

theorem test_decode_mov : decode .reference [0x01, 0x03, 0xFC, 0xFF, 0x00, 0x00, 0x01, 0x01, 0x00, 0x00, 0x00] =
    .ok (.mov ⟨0x03, 0xFFFC⟩ ⟨0x01, 1⟩, []) := by decide
theorem test_decode_add : decode .reference [0x02, 0x01, 0x02, 0x00, 0x00, 0x00, 0x03, 0x00, 0x80, 0x00, 0x00] =
    .ok (.add ⟨0x01, 2⟩ ⟨0x03, 0x8000⟩, []) := by decide
theorem test_decode_sub : decode .reference [0x03, 0x01, 0x01, 0x00, 0x00, 0x00, 0x02, 0x01, 0x00, 0x00, 0x00] =
    .ok (.sub ⟨0x01, 1⟩ ⟨0x02, 1⟩, []) := by decide
theorem test_decode_cmp : decode .reference [0x04, 0x01, 0x01, 0x00, 0x00, 0x00, 0x02, 0xFF, 0xFF, 0xFF, 0xFF] =
    .ok (.cmp ⟨0x01, 1⟩ ⟨0x02, 0xFFFFFFFF⟩, []) := by decide
theorem test_decode_jmp : decode .reference [0x05, 0x00, 0x20, 0x00, 0x00] = .ok (.jmp 0x2000, []) := by decide
theorem test_decode_je : decode .reference [0x06, 0x1C, 0x10, 0x00, 0x00, 0xFF] = .ok (.je 0x101C, [0xFF]) := by decide
theorem test_decode_jne : decode .reference [0x07, 0x2D, 0x10, 0x00, 0x00] = .ok (.jne 0x102D, []) := by decide
theorem test_decode_call : decode .reference [0x08, 0x06, 0x10, 0x00, 0x00] = .ok (.call 0x1006, []) := by decide
theorem test_decode_ret : decode .reference [0x09, 0x01] = .ok (.ret, [0x01]) := by decide
theorem test_decode_push : decode .reference [0x0A, 0x01] = .ok (.push 0x01, []) := by decide
theorem test_decode_pop : decode .reference [0x0B, 0x08] = .ok (.pop 0x08, []) := by decide
theorem test_decode_inc : decode .reference [0x0C, 0x03] = .ok (.inc 0x03, []) := by decide
theorem test_decode_dec : decode .reference [0x0D, 0x03] = .ok (.dec 0x03, []) := by decide
theorem test_decode_int : decode .reference [0x0E, 0x80] = .ok (.int 0x80, []) := by decide
theorem test_decode_nop : decode .reference [0x0F] = .ok (.nop, []) := by decide
theorem test_decode_hlt : decode .reference [0xFF] = .ok (.hlt, []) := by decide
theorem test_decode_and : decode .reference [0x11, 0x01, 0x01, 0x00, 0x00, 0x00, 0x02, 0xF0, 0xF0, 0x00, 0x00] =
    .ok (.and ⟨0x01, 1⟩ ⟨0x02, 0xF0F0⟩, []) := by decide
theorem test_decode_or : decode .reference [0x12, 0x01, 0x01, 0x00, 0x00, 0x00, 0x02, 0x0F, 0x00, 0x00, 0x00] =
    .ok (.or ⟨0x01, 1⟩ ⟨0x02, 0x0F⟩, []) := by decide
theorem test_decode_xor : decode .reference [0x13, 0x01, 0x01, 0x00, 0x00, 0x00, 0x01, 0x02, 0x00, 0x00, 0x00] =
    .ok (.xor ⟨0x01, 1⟩ ⟨0x01, 2⟩, []) := by decide
theorem test_decode_input : decode .reference [0x14, 0x01] = .ok (.input 0x01, []) := by decide
theorem test_decode_print : decode .reference [0x15, 0x02, 0xFE, 0xFF, 0x00, 0x00] =
    .ok (.print ⟨0x02, 0xFFFE⟩, []) := by decide

theorem test_decode_rejects :
    decode .reference [] = .error .noBytes ∧ decode .reference [0x10] = .error (.unassignedOpcode 0x10) ∧
    decode .reference [0x16] = .error (.unassignedOpcode 0x16) ∧ decode .reference [0x0A] = .error .truncated ∧
    decode .reference [0x05, 0x00, 0x10, 0x00] = .error .truncated := by decide

/-- The numbering of opcode_table.json: `JMP 0x2000`, and HLT with nothing after it. -/
theorem test_table_word :
    decodeTableWord 40 0x0000200005 = some (.jmp 0x2000) ∧ decodeTableWord 8 0xFF = some .hlt ∧
    decodeTableWord 8 0x0201 = some (.mov ⟨0, 0⟩ ⟨0, 0⟩) ∧ decodeTableWord 8 0x10 = none := by decide

theorem test_fetch_word :
    answers (step (State.reset.withFetchWord 40 0x0000200005)) (fun t => t.ip == 0x2000) = true ∧
    answers (step (State.reset.withFetchWord 8 0xFF)) (fun t => !t.running) = true := by decide +kernel

/-! ### One step of each instruction (95_test_vectors.md) -/

/-- A9. -/
theorem test_mov_stores_little_endian :
    answers (step (acc (started [0x01, 0x03, 0xFC, 0xFF, 0, 0, 0x01, 0x01, 0, 0, 0, 0xFF]) 0x11223344))
      (fun t => t.byteAt 0xFFFC == 0x44 && t.byteAt 0xFFFF == 0x11 && t.ip == 0x100B) = true := by decide +kernel

/-- W8, second row. -/
theorem test_mov_reads_zero_outside :
    answers (step (acc (started [0x01, 0x01, 0x01, 0, 0, 0, 0x03, 0xFF, 0xFF, 0xFF, 0xFF, 0xFF]) 9))
      (fun t => t.x.r1 == 0 && t.diags == [.memoryFault .read 0xFFFFFFFF 4]) = true := by decide +kernel

/-- A1, with the Z of A17. -/
theorem test_add_wraps_and_keeps_flags :
    answers (step { acc (started [0x02, 0x01, 0x01, 0, 0, 0, 0x02, 0x01, 0, 0, 0, 0xFF]) 0xFFFFFFFF with flags := 1 })
      (fun t => t.x.r1 == 0 && t.flags == 1) = true := by decide +kernel

/-- 60_exceptions.md R411: ADD with both operands out of range reports the read of the destination, the read of the
source, then the write. -/
theorem test_add_reports_in_order :
    answers (step (started [0x02, 0x03, 0xFD, 0xFF, 0, 0, 0x03, 0xFE, 0xFF, 0, 0, 0xFF]))
      (fun t => t.diags ==
        [.memoryFault .read 0xFFFD 4, .memoryFault .read 0xFFFE 4, .memoryFault .write 0xFFFD 4]) = true := by
  decide +kernel

/-- A2. -/
theorem test_sub_wraps :
    answers (step (started [0x03, 0x01, 0x01, 0, 0, 0, 0x02, 0x01, 0, 0, 0, 0xFF]))
      (fun t => t.x.r1 == 0xFFFFFFFF && t.flags == 0) = true := by decide +kernel

/-- A3. -/
theorem test_and :
    answers (step (acc (started [0x11, 0x01, 0x01, 0, 0, 0, 0x02, 0xF0, 0xF0, 0, 0, 0xFF]) 0x12345678))
      (fun t => t.x.r1 == 0x5070) = true := by decide +kernel

/-- A4. -/
theorem test_or :
    answers (step (acc (started [0x12, 0x01, 0x01, 0, 0, 0, 0x02, 0x0F, 0, 0, 0, 0xFF]) 0xF0))
      (fun t => t.x.r1 == 0xFF) = true := by decide +kernel

/-- A5. -/
theorem test_xor :
    answers (step (acc (started [0x13, 0x01, 0x01, 0, 0, 0, 0x01, 0x01, 0, 0, 0, 0xFF]) 0xDEADBEEF))
      (fun t => t.x.r1 == 0) = true := by decide +kernel

/-- A6. -/
theorem test_inc_wraps :
    answers (step (acc (started [0x0C, 0x01, 0xFF]) 0xFFFFFFFF)) (fun t => t.x.r1 == 0 && t.ip == 0x1002) = true := by
  decide +kernel

/-- A7. -/
theorem test_dec_wraps :
    answers (step (started [0x0D, 0x01, 0xFF])) (fun t => t.x.r1 == 0xFFFFFFFF && t.flags == 0) = true := by
  decide +kernel

/-- A15: unsigned, so 0xFFFFFFFF is not below 0. -/
theorem test_cmp_is_unsigned :
    answers (step (acc (started [0x04, 0x01, 0x01, 0, 0, 0, 0x02, 0, 0, 0, 0, 0xFF]) 0xFFFFFFFF))
      (fun t => !t.z && !t.n && t.x.r1 == 0xFFFFFFFF) = true := by decide +kernel

/-- A16, from flags that held Z. -/
theorem test_cmp_overwrites :
    answers (step { started [0x04, 0x01, 0x01, 0, 0, 0, 0x02, 0xFF, 0xFF, 0xFF, 0xFF, 0xFF] with flags := 1 })
      (fun t => !t.z && t.n && t.flags == 2) = true := by decide +kernel

/-- J1. -/
theorem test_jmp : answers (step (started [0x05, 0x00, 0x20, 0, 0])) (fun t => t.ip == 0x2000) = true := by
  decide +kernel

/-- J2: not taken after reset, and taken with Z set. -/
theorem test_je :
    answers (step (started [0x06, 0x00, 0x10, 0, 0, 0xFF])) (fun t => t.ip == 0x1005) = true ∧
    answers (step { started [0x06, 0x00, 0x10, 0, 0, 0xFF] with flags := 1 }) (fun t => t.ip == 0x1000) = true := by
  decide +kernel

/-- J3: taken after reset; N alone does not matter. -/
theorem test_jne :
    answers (step { started [0x07, 0x00, 0x10, 0, 0] with flags := 2 }) (fun t => t.ip == 0x1000) = true ∧
    answers (step { started [0x07, 0x00, 0x10, 0, 0] with flags := 1 }) (fun t => t.ip == 0x1005) = true := by
  decide +kernel

/-- W6, after CALL. -/
theorem test_call :
    answers (step (started [0x08, 0x06, 0x10, 0, 0, 0xFF, 0x09]))
      (fun t => t.ip == 0x1006 && t.sp == 0xFFFC && wordAt t 0xFFFC == 0x1005) = true := by decide +kernel

/-- J6, after CALL: the push is dropped, the jump happens. -/
theorem test_call_drops_the_push :
    answers (step ((started [0x08, 0x06, 0x10, 0, 0, 0xFF, 0x09]).setReg .c8 2))
      (fun t => t.ip == 0x1006 && t.sp == 0xFFFFFFFE && t.diags == [.memoryFault .write 0xFFFFFFFE 4]) = true := by
  decide +kernel

/-- J5, after RET. -/
theorem test_ret_on_empty_stack :
    answers (step (started [0x09]))
      (fun t => t.ip == 0 && t.sp == 0x10004 && t.diags == [.memoryFault .read 0x10000 4]) = true := by decide +kernel

/-- S1: PUSH of the stack pointer stores its value before the move. -/
theorem test_push_stack_pointer :
    answers (step (started [0x0A, 0x08, 0xFF])) (fun t => t.sp == 0xFFFC && wordAt t 0xFFFC == 0x10000) = true := by
  decide +kernel

/-- S5. -/
theorem test_push_bad_register :
    answers (step (started [0x0A, 0x09, 0xFF]))
      (fun t => t.ip == 0x1002 && t.sp == 0x10000 &&
        t.stopReason == some (.undefinedOperand (.regCode 0x09))) = true := by decide +kernel

/-- S2, after POP: the popped word wins over the move of SP. -/
theorem test_pop_stack_pointer :
    answers (exec (.pop 0x08) (acc (started [0xFF]) 0x1234 |>.push 0x1234)) (fun t => t.sp == 0x1234) = true := by
  decide +kernel

/-- S4. -/
theorem test_pop_on_empty_stack :
    answers (step (started [0x0B, 0x02, 0xFF])) (fun t => t.x.r2 == 0 && t.sp == 0x10004) = true := by decide +kernel

/-- I1. -/
theorem test_int_empty_vector :
    answers (step (started [0x0E, 0x80, 0xFF]))
      (fun t => t.ip == 0x1002 && t.diags == [.unhandledInterrupt 0x80]) = true := by decide +kernel

/-- I2: a handler that writes 99 and returns, and one that exits. -/
theorem test_int_handlers :
    answers (exec (.int 0x21) { started [0x0E, 0x21, 0x0E, 0x80, 0xFF] with
        ivt := [(0x21, .script ⟨[.setReg .c1 99], .ret⟩), (0x80, .script ⟨[], .exit⟩)] })
      (fun t => t.x.r1 == 99 && t.stopReason == none) = true ∧
    answers (exec (.int 0x80) { started [0x0E, 0x21, 0x0E, 0x80, 0xFF] with
        ivt := [(0x21, .script ⟨[.setReg .c1 99], .ret⟩), (0x80, .script ⟨[], .exit⟩)] })
      (fun t => t.stopReason == some .hostExit) = true := by decide +kernel

/-- I3, after NOP. -/
theorem test_nop : answers (step (started [0x0F, 0x0C, 0x01])) (fun t => t.ip == 0x1001 && t.x.r1 == 0) = true := by
  decide +kernel

/-- W9, last row: HLT, and the stop of the next turn. -/
theorem test_hlt :
    answers (step (started [0xFF])) (fun t => !t.running && t.ip == 0x1001 && t.stopReason == none) = true ∧
    answers (step { started [0xFF] with running := false, ip := 0x1001 })
      (fun t => t.stopReason == some .halted) = true := by decide +kernel

/-- I5: a negative number, with whitespace. -/
theorem test_input_negative :
    answers (step { started [0x14, 0x01, 0xFF] with input := ["  -1 ".toList] })
      (fun t => t.x.r1 == 0xFFFFFFFF && t.input == [] && t.diags == []) = true := by decide +kernel

/-- I9, and I11. -/
theorem test_input_bad_and_blocked :
    answers (step { acc (started [0x14, 0x01, 0xFF]) 5 with input := ["0x10".toList] })
      (fun t => t.x.r1 == 0 && t.diags == [.inputFormatError "0x10".toList]) = true ∧
    faults (step (started [0x14, 0x01, 0xFF])) .inputBlocked = true := by decide +kernel

/-- I18: the string ends silently at the end of the buffer. -/
theorem test_print_string_to_the_end :
    answers (exec (.print ⟨0x02, 5 - 2⟩) { State.fresh tiny with mem := [(3, 0x41), (4, 0x42)] })
      (fun t => t.output == [0x41, 0x42] && t.diags == []) = true := by decide +kernel

/-- I14. -/
theorem test_print_number :
    answers (step ((started [0x15, 0x01, 0x02, 0, 0, 0, 0xFF]).setReg .c2 0xFFFFFFFF))
      (fun t => t.output == "4294967295 ".toList.map (fun c => BitVec.ofNat 8 c.toNat)) = true := by decide +kernel

/-! ### Fetch, decode and creation (95_test_vectors.md 2.2, 2.7) -/

/-- D1. -/
theorem test_unassigned_opcode :
    answers (step (started [0x10]))
      (fun t => t.ip == 0x1001 && t.stopReason == some .decodeFailure &&
        t.diags == [.decodeFailure 0x10 0x1000]) = true := by decide +kernel

/-- D3, and D16 with the other policy. -/
theorem test_bad_tag :
    answers (step (started [0x01, 0x04, 0, 0, 0, 0, 0x02, 0x01, 0, 0, 0, 0xFF]))
      (fun t => t.ip == 0x1006 && t.stopReason == some (.undefinedOperand (.tag 0x04))) = true ∧
    unpack strict ⟨0x04, 7⟩ = .ok .unknown := by decide +kernel

/-- D8: an Immediate destination drops the write. -/
theorem test_immediate_destination :
    answers (step (started [0x01, 0x02, 0x05, 0, 0, 0, 0x02, 0x01, 0, 0, 0, 0xFF]))
      (fun t => t.ip == 0x100B && t.x.r1 == 0 && t.diags == [.nonWritableDestination 0x02]) = true := by decide +kernel

/-- D12: the missing bytes of a truncated instruction are fetched beyond `CODE_END`. -/
theorem test_truncated_instruction :
    answers (step (acc (started [0x01, 0x01, 0x01, 0, 0, 0, 0x02]) 9))
      (fun t => t.x.r1 == 0 && t.ip == 0x100B && t.stopReason == none) = true := by decide +kernel

/-- R1. -/
theorem test_creation :
    State.reset.sp = 0x10000 ∧ State.reset.x.r1 = 0 ∧ State.reset.flags = 0 ∧ State.reset.running = false := by
  decide

/-- R2. -/
theorem test_load :
    answers (load [0xFF] [0x61, 0x00] [] State.reset)
      (fun t => t.ip == 0x1000 && t.codeEnd == 0x1001 && t.byteAt 0x1000 == 0xFF && t.byteAt 0x8000 == 0x61) = true := by
  decide +kernel

/-- R5. -/
theorem test_vector_refused :
    refuses (registerInterrupt 256 (.host 0) State.reset) .vectorOutOfRange = true := by decide

/-! ### The assembler (95_test_vectors.md sections 1, 2.1 and 3) -/

/-- W3. -/
theorem test_assemble_label :
    assemble Config.reference "label1: HLT".toList = ⟨[0xFF], [], [("label1".toList, 0x1000)], []⟩ := by decide +kernel

/-- W4. -/
theorem test_assemble_equ :
    assemble Config.reference "x equ 42".toList = ⟨[], [], [("x".toList, 42)], []⟩ := by decide +kernel

/-- E16. -/
theorem test_assemble_items :
    assemble Config.reference "DB 0x1FF, -1, \"\\0\", foo".toList =
      ⟨[], [0xFF, 0xFF, 0x00, 0x00], [], [.syntaxError 0 "foo".toList]⟩ := by decide +kernel

/-- E14: pass 2 binds the data label over the `equ`. -/
theorem test_assemble_rebinds :
    assemble Config.reference "a: DB 1\na equ 9\nMOV ACCUMULATOR, a".toList =
      ⟨[0x01, 0x01, 0x01, 0, 0, 0, 0x02, 0x00, 0x80, 0, 0], [0x01], [("a".toList, 0x8000)], []⟩ := by decide +kernel

/-- E18: the string pool moves the data but not the data label. -/
theorem test_assemble_pool :
    assemble Config.reference "q: PRINT \"x\"\nw: DB 5".toList =
      ⟨[0x15, 0x02, 0x00, 0x80, 0, 0], [0x78, 0x00, 0x05], [("q".toList, 0x1000), ("w".toList, 0x8000)], []⟩ := by
  decide +kernel

/-- E9, E7 and E3 together: label-only lines, a bad mnemonic, a register in brackets. -/
theorem test_assemble_lines :
    assemble Config.reference "d:\nDB 7, 8\ne:\nfoo x ; no\n\nMOV [REG2], 1".toList =
      ⟨[0x01, 0, 0, 0, 0, 0, 0x02, 0x01, 0, 0, 0], [0x07, 0x08],
        [("d".toList, 0x8000), ("e".toList, 0x1000)], [.syntaxError 3 "foo".toList]⟩ := by decide +kernel

/-- E12, E13 and E15: the alias in any case, a missing operand, a negative literal. -/
theorem test_assemble_operands :
    assemble Config.reference "db 1, 2\nDb 3\nMOV ACCUMULATOR\nJMP -1".toList =
      ⟨[0x01, 0x01, 0x01, 0, 0, 0, 0x00, 0, 0, 0, 0, 0x05, 0xFF, 0xFF, 0xFF, 0xFF], [0x01, 0x02, 0x03], [], []⟩ := by
  decide +kernel

/-! ### Witnesses: a state and operands that meet the hypotheses of each obligation, clause by clause -/

theorem test_witness_creation :
    { Config.reference with spCode := .c1 }.valid = false ∧ Config.reference.valid = true ∧ tiny.valid = true := by
  decide

/-- `LoadPlacesTheImage`: an image that just fits the small machine, one byte of code too many, one of data. -/
theorem test_witness_load :
    (State.fresh tiny).phase = .created ∧ tiny.valid = true ∧
    (tiny.codeOrigin + [0xFF#8].length ≤ tiny.dataOrigin ∧ tiny.dataOrigin + [1#8, 2, 3, 4].length ≤ tiny.memSize) ∧
    ¬ (tiny.codeOrigin + [0xFF#8, 0xFF].length ≤ tiny.dataOrigin ∧ tiny.dataOrigin + 0 ≤ tiny.memSize) ∧
    ¬ (tiny.codeOrigin + [0xFF#8].length ≤ tiny.dataOrigin ∧
      tiny.dataOrigin + [1#8, 2, 3, 4, 5].length ≤ tiny.memSize) := by decide

theorem test_witness_host_operations :
    State.reset.Inv ∧ answers (registerInterrupt 255 (.host 0) State.reset) (fun _ => true) = true ∧
    answers (load [0xFF] [] [] State.reset) (fun _ => true) = true ∧
    (started []).Inv ∧ (started []).phase = .started ∧
    answers (run { State.reset with phase := .loaded }) (fun _ => true) = true := by decide

theorem test_witness_registration :
    256 ≤ 256 ∧ 255 < 256 ∧ (started []).phase = .started ∧ State.reset.phase ≠ .started ∧
    { State.reset with phase := .loaded }.phase = .loaded ∧ State.reset.phase ≠ .loaded := by decide

theorem test_witness_step_decoded :
    (started [0x0F]).inLoop ∧ ∃ rest, decode (started [0x0F]).cfg.opc (started [0x0F]).instrBytes = .ok (.nop, rest) :=
  ⟨by decide +kernel, List.replicate 10 0x00, by decide +kernel⟩

theorem test_witness_step_encoded :
    (started (encode .reference (.mov ⟨1, 1⟩ ⟨2, 5⟩))).inLoop ∧
    (started (encode .reference (.mov ⟨1, 1⟩ ⟨2, 5⟩))).cfg.opc.injective = true ∧
    (∀ k, k < (Instr.mov ⟨1, 1⟩ ⟨2, 5⟩).length →
      (started (encode .reference (.mov ⟨1, 1⟩ ⟨2, 5⟩))).fetchByte
          ((started (encode .reference (.mov ⟨1, 1⟩ ⟨2, 5⟩))).ip + BitVec.ofNat 32 k) =
        (encode (started (encode .reference (.mov ⟨1, 1⟩ ⟨2, 5⟩))).cfg.opc (.mov ⟨1, 1⟩ ⟨2, 5⟩)).getD k 0) := by
  decide +kernel

/-- `TurnTestsComeInOrder`: a stopped run, a run not begun, the cap used up, a halted core, the end of the code; the
last three in one state each, with the earlier test passed. -/
theorem test_witness_turn :
    { started [0xFF] with stopReason := some .capped }.stopReason = some .capped ∧
    (State.reset.stopReason = none ∧ State.reset.phase ≠ .started) ∧
    ({ started [0xFF] with hostCap := some 0 }.stopReason = none ∧
      { started [0xFF] with hostCap := some 0 }.phase = .started ∧
      { started [0xFF] with hostCap := some 0 }.hostCap = some 0) ∧
    ({ started [0xFF] with hostCap := some 1, running := false }.phase = .started ∧
      { started [0xFF] with hostCap := some 1, running := false }.stopReason = none ∧
      { started [0xFF] with hostCap := some 1, running := false }.hostCap ≠ some 0 ∧
      { started [0xFF] with hostCap := some 1, running := false }.running = false) ∧
    ((started []).stopReason = none ∧ (started []).phase = .started ∧ (started []).hostCap ≠ some 0 ∧
      (started []).running = true ∧ (started []).codeEnd ≤ (started []).ip) := by decide

theorem test_witness_unassigned :
    (started [0x10]).Inv ∧ (started [0x10]).inLoop ∧
    (started [0x10]).cfg.opc.mnemonicOf ((started [0x10]).byteAt (started [0x10]).ip.toNat) = none := by
  decide +kernel

theorem test_witness_encoding :
    OpcodeMap.reference.injective = true ∧ decode .reference [0x0F, 0x01] = .ok (.nop, [0x01]) := by decide

theorem test_witness_unpacker :
    (1 : Word).extractLsb' 0 8 = RegCode.c1.toByte ∧ (8 : Word).extractLsb' 0 8 = RegCode.c8.toByte ∧
    ((0x100 : Word).extractLsb' 0 8).toNat = 0 ∧ 9 ≤ ((9 : Word).extractLsb' 0 8).toNat ∧ 4 ≤ (0x04 : Byte).toNat := by
  decide

theorem test_witness_bad_encoding :
    unpack State.reset.cfg ⟨0x04, 0⟩ = .error (.tag 0x04) ∧
    (unpack State.reset.cfg ⟨0x01, 8⟩ = .ok (.reg .c8) ∧ unpack State.reset.cfg ⟨0x01, 9⟩ = .error (.regCode 9)) ∧
    decodeReg State.reset.cfg 0 = .error (.regCode 0) ∧ decodeReg State.reset.cfg 9 = .error (.regCode 9) := by decide

theorem test_witness_fault_policies :
    unpack strict ⟨0x00, 0⟩ = .ok .unknown ∧ unpack strict ⟨0x02, 7⟩ = .ok (.imm 7) ∧
    unpack strict ⟨0x03, 0xFFFD⟩ = .ok (.mem 0xFFFD) ∧
    (State.fresh strict).canRead .unknown = false ∧ (State.fresh strict).canRead (.mem 0xFFFD) = true ∧
    (State.fresh strict).canRead (.imm 7) = true ∧ (State.fresh strict).canWrite (.imm 7) = false := by decide

/-- The four operand forms in each position, for MOV, the arithmetic and logic instructions and CMP. -/
theorem test_witness_binary :
    unpack State.reset.cfg ⟨0x00, 0⟩ = .ok .unknown ∧ unpack State.reset.cfg ⟨0x01, 8⟩ = .ok (.reg .c8) ∧
    unpack State.reset.cfg ⟨0x02, 7⟩ = .ok (.imm 7) ∧ unpack State.reset.cfg ⟨0x03, 0xFFFC⟩ = .ok (.mem 0xFFFC) ∧
    (∀ o ∈ [Operand.unknown, .reg .c8, .imm 7, .mem 0xFFFC, .mem 0xFFFD],
      State.reset.canRead o = true ∧ State.reset.canWrite o = true) := by decide

/-- `MemoryDestinationsChangeTheirFourBytes` and `SameOperandTwiceIsWellDefined`: the last word of the buffer, and the
first address whose word leaves it. -/
theorem test_witness_memory_destination :
    unpack State.reset.cfg ⟨0x03, 0xFFFC⟩ = .ok (.mem 0xFFFC) ∧
    (0xFFFC : Word).toNat + 4 ≤ State.reset.cfg.memSize ∧
    unpack State.reset.cfg ⟨0x03, 0xFFFD⟩ = .ok (.mem 0xFFFD) ∧
    ¬ (0xFFFD : Word).toNat + 4 ≤ State.reset.cfg.memSize ∧
    unpack State.reset.cfg ⟨0x01, 1⟩ = .ok (.reg .c1) ∧ State.reset.canRead (.reg .c1) = true := by decide

/-- The register instructions: INC, DEC, PUSH, POP, INPUT, at the first and the last register byte. -/
theorem test_witness_register :
    decodeReg State.reset.cfg 1 = .ok .c1 ∧ decodeReg State.reset.cfg 8 = .ok .c8 := by decide

theorem test_witness_only_cmp :
    (Instr.inc 1).mnemonic ≠ .cmp ∧ answers (exec (.inc 1) State.reset) (fun _ => true) = true := by decide

theorem test_witness_call_and_ret :
    (State.reset.x.get State.reset.cfg.spCode - 4).toNat + 4 ≤ State.reset.cfg.memSize ∧
    ∃ t, exec (.call 0x1006) State.reset = .next t ∧ t.cfg = State.reset.cfg :=
  ⟨by decide, _, rfl, rfl⟩

theorem test_witness_push_and_pop :
    decodeReg State.reset.cfg 1 = .ok .c1 ∧ RegCode.c1 ≠ State.reset.cfg.spCode ∧
    (State.reset.x.get State.reset.cfg.spCode - 4).toNat + 4 ≤ State.reset.cfg.memSize ∧
    answers (exec (.push 1) State.reset) (fun _ => true) = true := by decide

/-- A state with three handlers: one that returns, one that exits, one that blocks. -/
def threeHandlers : State :=
  { State.reset with
    ivt := [(0x00, .script ⟨[.print [0x41]], .ret⟩), (0x80, .script ⟨[], .exit⟩), (0xFF, .script ⟨[], .blocks⟩)] }

theorem test_witness_int :
    Ivt.get threeHandlers.ivt 0x01 = none ∧
    (∃ h, Ivt.get threeHandlers.ivt 0x00 = some h ∧ ((threeHandlers.pastFields 1).handlerRun h).ending = .ret) ∧
    (∃ h, Ivt.get threeHandlers.ivt 0x80 = some h ∧ (threeHandlers.handlerRun h).ending = .exit) ∧
    (∃ h, Ivt.get threeHandlers.ivt 0xFF = some h ∧ (threeHandlers.handlerRun h).ending = .blocks) :=
  ⟨by decide, ⟨_, rfl, rfl⟩, ⟨_, rfl, rfl⟩, ⟨_, rfl, rfl⟩⟩

theorem test_witness_int_answers :
    answers (exec (.int 0x00) threeHandlers) (fun t => t.output == [0x41] && t.ip == 0x1001) = true ∧
    answers (exec (.int 0x80) threeHandlers) (fun t => t.ip == 0x1001) = true ∧
    faults (exec (.int 0xFF) threeHandlers) .handlerBlocked = true := by decide +kernel

theorem test_witness_hlt :
    answers (exec .hlt (started [0xFF])) (fun t => t.stopReason == none && t.phase == .started && t.hostCap != some 0) =
      true := by decide +kernel

theorem test_witness_input :
    decodeReg State.reset.cfg 1 = .ok .c1 ∧
    parseInput State.reset.cfg "4294967296".toList = some 4294967296 ∧ parseInput State.reset.cfg [] = none ∧
    State.reset.input = [] ∧ State.reset.cfg.inputEof = .stuck ∧ strict.inputEof = .zero ∧
    { State.reset with input := [[]] }.input = [[]] := by decide +kernel

theorem test_witness_print :
    unpack State.reset.cfg ⟨0x02, 0x10000⟩ = .ok (.imm 0x10000) ∧ State.reset.canRead (.imm 0x10000) = true ∧
    unpack State.reset.cfg ⟨0x03, 0xFFFE⟩ = .ok (.mem 0xFFFE) ∧ State.reset.canRead (.mem 0xFFFE) = true ∧
    State.reset.canRead .unknown = true := by decide

/-- `PrintedStringEndsAtNullOrBufferEnd`: an address at the end, a string of one byte before a null, and one that runs
to the end. -/
theorem test_witness_printed_string :
    tiny.memSize ≤ (5 : Word).toNat ∧
    State.stringAt { State.fresh tiny with mem := [(2, 0x41), (4, 0x42)] } 2 = [0x41] ∧
    State.stringAt { State.fresh tiny with mem := [(2, 0x41), (4, 0x42)] } 4 = [0x42] := by decide +kernel

theorem test_witness_parser :
    isSpace ' ' = true ∧ isSpace '\t' = true ∧ isSpace '\r' = true ∧ isSpace '\n' = true ∧ isSpace '0' = false := by
  decide

/-- `BoundedAccessesNeverWrap`: the last byte and word of the buffer, the first that leave it, and the top of the
address space, where the sum does not wrap. -/
theorem test_witness_bounds :
    (0xFFFF : Word).toNat + Width.bytes .byte ≤ State.reset.cfg.memSize ∧
    (0xFFFC : Word).toNat + Width.bytes .word ≤ State.reset.cfg.memSize ∧
    State.reset.cfg.memSize < (0xFFFD : Word).toNat + Width.bytes .word ∧
    State.reset.cfg.memSize < (0xFFFFFFFF : Word).toNat + Width.bytes .byte ∧
    State.reset.cfg.memSize ≤ (0x10000 : Word).toNat ∧ (0xFFFF : Word).toNat < State.reset.cfg.memSize := by decide

theorem test_witness_invariant :
    (started [0x0F]).Inv ∧ answers (step (started [0x0F])) (fun _ => true) = true := by decide +kernel

/-- `NothingReadsTheNegativeFlag`: flags that differ in N only, with a next state, a fault and a refusal. -/
theorem test_witness_negative_flag :
    (2 : Word).getLsbD 0 = State.reset.flags.getLsbD 0 ∧
    answers (step (started [0x0F])) (fun _ => true) = true ∧
    faults (step { started [] with stopReason := some .halted }) (.runStopped .halted) = true ∧
    refuses (step State.reset) .runNotBegun = true := by decide +kernel

/-- `IpAdvancesByTheEncodedLength`: a step that stays in the run, for each of its cases. -/
theorem test_witness_ip :
    ∀ i ∈ [Instr.nop, .jmp 0, .call 0, .je 0, .jne 0, .ret, .mov ⟨1, 1⟩ ⟨3, 0xFFFFFFFF⟩],
      (started (encode .reference i)).inLoop ∧
      decodesTo (started (encode .reference i)) i = true ∧
      answers (step (started (encode .reference i))) (fun t => t.stopReason == none) = true := by decide +kernel

theorem test_witness_undefined_stop :
    answers (exec (.inc 9) (started [])) (fun t => t.stopReason == some (.undefinedOperand (.regCode 9))) = true ∧
    (started []).stopReason = none := by decide +kernel

/-- The frames: a store to memory, a push, and a form that stores nothing. -/
theorem test_witness_frames :
    (Instr.mov ⟨3, 0xFFFC⟩ ⟨2, 1⟩).mnemonic ≠ .int ∧
    State.reset.storeTarget (.mov ⟨3, 0xFFFC⟩ ⟨2, 1⟩) = some 0xFFFC ∧
    answers (exec (.mov ⟨3, 0xFFFC⟩ ⟨2, 1⟩) State.reset) (fun _ => true) = true ∧
    State.reset.storeTarget (.push 1) = some 0xFFFC ∧ State.reset.storeTarget .nop = none ∧
    State.reset.namedDestination (.pop 1) = [.c1] ∧ State.reset.implicitDestination (.pop 1) = [.c8] ∧
    State.reset.cfg.spCode ∉ State.reset.namedDestination (.pop 1) ∧
    RegCode.c2 ∉ State.reset.namedDestination (.pop 1) ∧ RegCode.c2 ∉ State.reset.implicitDestination (.pop 1) ∧
    answers (exec (.pop 1) State.reset) (fun _ => true) = true := by decide +kernel

/-- `CodeLabelsNameEmittedAddresses` and `PassesAgreeOnTheDataCursor`: a code label and a data label, each bound
once. -/
theorem test_witness_labels :
    Config.reference.printDeclSize = 6 ∧
    (parseSource Config.reference "HLT\nx: NOP\nd: DB 1".toList =
      [⟨none, .instr "HLT".toList []⟩, ⟨some "x".toList, .instr "NOP".toList []⟩,
        ⟨some "d".toList, .data "1".toList⟩]) ∧
    Line.bindsData ⟨some "x".toList, .instr "NOP".toList []⟩ (some ⟨some "d".toList, .data "1".toList⟩) = false ∧
    Line.bindsData ⟨some "d".toList, .data "1".toList⟩ none = true ∧
    (∀ k ∈ [Line.mk none (.instr "HLT".toList []), ⟨some "d".toList, .data "1".toList⟩],
      lineBinds "x".toList k = false) := by decide +kernel

theorem test_witness_pool :
    mnemonicNamed Config.reference "print".toList = some .print ∧
    (splitCommas "\"a,b\"".toList)[0]? = some "\"a,b\"".toList ∧ isStringLiteral "\"a,b\"".toList = true := by
  decide +kernel

theorem test_witness_syntax_error :
    Diagnostic.syntaxError 0 "foo".toList ∈ (assemble Config.reference "foo".toList).diags := by decide +kernel

end Sys2Proof.Tests
end

section
/-! PROOFS. The family of 10_state.md: the flags word under CMP (R40), and where an instruction leaves `ip` (R36). -/

namespace Sys2Proof.Machine

/-! ### CMP and the flags (R40, R248)

What an operand is worth does not depend on the flags. -/

section flagsApart
variable (s : State) (f : Word) (o : Operand)

theorem State.operandValue_flags : ({ s with flags := f } : State).operandValue o = s.operandValue o := by
  cases o <;> rfl

theorem State.readReports_flags : ({ s with flags := f } : State).readReports o = s.readReports o := by
  cases o <;> rfl

theorem State.canRead_flags : ({ s with flags := f } : State).canRead o = s.canRead o := by
  cases o <;> rfl

end flagsApart

/-- CMP of two operands that decode and are readable, its next state said as a whole. -/
theorem exec_cmp_eq {s : State} {d src : TaggedOperand} {od os : Operand} (hd : unpack s.cfg d = .ok od)
    (hs : unpack s.cfg src = .ok os) (hrd : s.canRead od = true) (hrs : s.canRead os = true) :
    exec (.cmp d src) s =
      .next { s with
        ip := s.ip + 10
        flags := compareFlags (s.operandValue od) (s.operandValue os)
        diags := s.diags ++ s.fetchReports 10 ++ s.readReports od ++ s.readReports os } := by
  have hrd' : (s.pastFields 10).canRead od = true := by rw [State.canRead_pastFields, hrd]
  have hrs' (ds : List Diagnostic) : ({ s.pastFields 10 with diags := ds } : State).canRead os = true := by
    rw [State.canRead_diags, State.canRead_pastFields, hrs]
  rw [show exec (.cmp d src) s = execCmp d src s from rfl, execCmp, State.withOperands_ok hd hs,
    State.withValue_readable hrd', State.withValue_readable (hrs' _)]
  simp only [State.operandValue_diags, State.operandValue_pastFields, State.readReports_diags,
    State.readReports_pastFields]
  rfl

/-- Settles O23: CMP's next state, said as a whole, mentions the flags it began with nowhere. -/
theorem cmpOverwritesBothFlags : Obligations.CmpOverwritesBothFlags := by
  intro s d src od os f hd hs hrd hrs
  refine ⟨_, exec_cmp_eq hd hs hrd hrs, ?_⟩
  rw [exec_cmp_eq (s := { s with flags := f }) hd hs (by rwa [State.canRead_flags])
    (by rwa [State.canRead_flags])]
  simp only [State.operandValue_flags, State.readReports_flags]
  rfl

/-! ### The operations that leave `ip` alone -/

@[simp] theorem State.consume_ip (n : Nat) (s : State) : (s.consume n).ip = s.ip + BitVec.ofNat 32 n := by
  rw [State.consume_eq]

@[simp] theorem State.memRead_ip (s : State) (w : Width) (a : Word) : (s.memRead w a).2.ip = s.ip := by
  unfold State.memRead
  split <;> rfl

@[simp] theorem State.memWrite_ip (s : State) (w : Width) (a v : Word) : (s.memWrite w a v).ip = s.ip := by
  unfold State.memWrite
  split <;> rfl

@[simp] theorem State.push_ip (s : State) (v : Word) : (s.push v).ip = s.ip := by rw [State.push_eq]

@[simp] theorem State.pop_ip (s : State) : s.pop.2.ip = s.ip := by rw [State.pop_eq]

@[simp] theorem State.writeNonwritable_ip (s : State) (tag : Byte) : (s.writeNonwritable tag).ip = s.ip := by
  unfold State.writeNonwritable
  split <;> rfl

@[simp] theorem State.writeOperand_ip (s : State) (o : Operand) (v : Word) : (s.writeOperand o v).ip = s.ip := by
  cases o with
  | reg c => rfl
  | mem a => exact s.memWrite_ip .word a v
  | imm w => exact s.writeNonwritable_ip _
  | unknown => exact s.writeNonwritable_ip _

@[simp] theorem State.inputValue_ip (s : State) (c : RegCode) (line : Text) : (s.inputValue c line).ip = s.ip := by
  unfold State.inputValue
  split <;> rfl

theorem State.handlerAct_ip (s : State) (act : HandlerAct) : (s.handlerAct act).ip = s.ip := by
  cases act with
  | setReg c v => rfl
  | load w a => exact s.memRead_ip w a
  | store w a v => exact s.memWrite_ip w a v
  | print bytes => rfl

theorem State.handlerActs_ip (acts : List HandlerAct) (s : State) : (s.handlerActs acts).ip = s.ip := by
  induction acts generalizing s with
  | nil => rfl
  | cons act acts ih => exact (ih _).trans (s.handlerAct_ip act)

/-- A handler reaches registers, memory and the output only (R420), so it cannot move `ip`. -/
@[simp] theorem State.afterHandler_ip (s : State) (run : HandlerRun) : (s.afterHandler run).ip = s.ip :=
  State.handlerActs_ip _ _

/-! ### Where a result leaves `ip`

The stages of an instruction, as for `Result.from`: a stage that raises ends the run, and then nothing is claimed. -/

/-- A result that, if it is a next state in which the run goes on, has `ip` at `a`. -/
def Result.leavesIpAt (a : Word) (r : Result) : Prop := ∀ t, r = .next t → t.stopReason = none → t.ip = a

theorem Result.leavesIpAt_next {a : Word} {s : State} (h : s.ip = a) : Result.leavesIpAt a (.next s) := by
  intro t ht _
  cases ht
  exact h

theorem Result.leavesIpAt_stopped {a : Word} {s : State} {r : StopReason} (h : s.stopReason = some r) :
    Result.leavesIpAt a (.next s) := by
  intro t ht hrun
  cases ht
  simp [h] at hrun

theorem Result.leavesIpAt_fault {a : Word} {f : Fault} : Result.leavesIpAt a (.fault f) := by
  intro t ht
  cases ht

theorem State.withOperand_leavesIpAt {a : Word} (s : State) (o : TaggedOperand) {rest : Operand → State → Result}
    (h : ∀ op t, t.ip = s.ip + 5 → Result.leavesIpAt a (rest op t)) :
    Result.leavesIpAt a (s.withOperand o rest) := by
  cases hu : unpack s.cfg o with
  | ok op =>
    rw [State.withOperand_ok hu]
    exact h op _ (s.consume_ip 5)
  | error info =>
    rw [State.withOperand_error hu]
    exact Result.leavesIpAt_stopped (State.raise_stopReason _ info)

theorem State.withOperands_leavesIpAt {a : Word} (s : State) (d src : TaggedOperand)
    {rest : Operand → Operand → State → Result}
    (h : ∀ od os t, t.ip = s.ip + 10 → Result.leavesIpAt a (rest od os t)) :
    Result.leavesIpAt a (s.withOperand d fun od s => s.withOperand src fun os s => rest od os s) :=
  s.withOperand_leavesIpAt d fun od t ht => t.withOperand_leavesIpAt src fun os u hu =>
    h od os u (by rw [hu, ht, BitVec.add_assoc]; rfl)

theorem State.withReg_leavesIpAt {a : Word} (s : State) (b : Byte) {rest : RegCode → State → Result}
    (h : ∀ c t, t.ip = s.ip + 1 → Result.leavesIpAt a (rest c t)) : Result.leavesIpAt a (s.withReg b rest) := by
  cases hd : decodeReg s.cfg b with
  | ok c =>
    rw [State.withReg_ok hd]
    exact h c _ (s.consume_ip 1)
  | error info =>
    rw [State.withReg_error hd]
    exact Result.leavesIpAt_stopped (State.raise_stopReason _ info)

theorem State.withValue_leavesIpAt {a : Word} (s : State) (o : Operand) {rest : Word → State → Result}
    (h : ∀ v t, t.ip = s.ip → Result.leavesIpAt a (rest v t)) : Result.leavesIpAt a (s.withValue o rest) := by
  cases hr : s.canRead o with
  | true =>
    rw [State.withValue_readable hr]
    exact h _ _ rfl
  | false =>
    rw [State.withValue_unreadable hr]
    exact Result.leavesIpAt_stopped (s.raise_stopReason _)

theorem State.hostCall_leavesIpAt (s : State) (h : Handler) : Result.leavesIpAt s.ip (s.hostCall h) := by
  unfold State.hostCall
  cases (s.handlerRun h).ending with
  | ret => exact Result.leavesIpAt_next (s.afterHandler_ip _)
  | exit => exact Result.leavesIpAt_stopped (State.stop_stopReason _ _)
  | blocks => exact Result.leavesIpAt_fault

/-! ### Each instruction's rule, begun at the byte after the opcode -/

theorem execMov_leavesIpAt (d src : TaggedOperand) (s : State) :
    Result.leavesIpAt (s.ip + 10) (execMov d src s) :=
  s.withOperands_leavesIpAt d src fun _ os t ht => t.withValue_leavesIpAt os fun _ u hu =>
    Result.leavesIpAt_next (by rw [State.writeOperand_ip, hu, ht])

theorem binaryOp_leavesIpAt (f : Word → Word → Word) (d src : TaggedOperand) (s : State) :
    Result.leavesIpAt (s.ip + 10) (binaryOp f d src s) :=
  s.withOperands_leavesIpAt d src fun od os t ht => t.withValue_leavesIpAt od fun _ u hu =>
    u.withValue_leavesIpAt os fun _ w hw => Result.leavesIpAt_next (by rw [State.writeOperand_ip, hw, hu, ht])

theorem execCmp_leavesIpAt (d src : TaggedOperand) (s : State) :
    Result.leavesIpAt (s.ip + 10) (execCmp d src s) :=
  s.withOperands_leavesIpAt d src fun od os t ht => t.withValue_leavesIpAt od fun _ u hu =>
    u.withValue_leavesIpAt os fun _ w hw => Result.leavesIpAt_next (by rw [State.setFlags_ip, hw, hu, ht])

theorem registerOp_leavesIpAt (f : Word → Word) (r : Byte) (s : State) :
    Result.leavesIpAt (s.ip + 1) (registerOp f r s) :=
  s.withReg_leavesIpAt r fun _ _ ht => Result.leavesIpAt_next ht

theorem execPush_leavesIpAt (r : Byte) (s : State) : Result.leavesIpAt (s.ip + 1) (execPush r s) :=
  s.withReg_leavesIpAt r fun _ t ht => Result.leavesIpAt_next (by rw [t.push_ip, ht])

theorem execPop_leavesIpAt (r : Byte) (s : State) : Result.leavesIpAt (s.ip + 1) (execPop r s) :=
  s.withReg_leavesIpAt r fun _ t ht => Result.leavesIpAt_next (t.pop_ip.trans ht)

theorem execInput_leavesIpAt (r : Byte) (s : State) : Result.leavesIpAt (s.ip + 1) (execInput r s) := by
  refine s.withReg_leavesIpAt r fun c t ht => ?_
  cases t.input with
  | nil =>
    unfold State.inputAtEnd
    cases t.cfg.inputEof with
    | stuck => exact Result.leavesIpAt_fault
    | zero => exact Result.leavesIpAt_next ht
  | cons line rest => exact Result.leavesIpAt_next (by rw [State.inputValue_ip, ht])

theorem execInt_leavesIpAt (v : Byte) (s : State) : Result.leavesIpAt (s.ip + 1) (execInt v s) := by
  have hip : (s.consume 1).ip = s.ip + 1 := s.consume_ip 1
  unfold execInt
  cases hv : Ivt.get (s.consume 1).ivt v with
  | none =>
    simp only [hv]
    exact Result.leavesIpAt_next hip
  | some h =>
    simp only [hv]
    exact hip ▸ State.hostCall_leavesIpAt (s.consume 1) h

theorem execPrint_leavesIpAt (o : TaggedOperand) (s : State) : Result.leavesIpAt (s.ip + 5) (execPrint o s) := by
  refine s.withOperand_leavesIpAt o fun op t ht => ?_
  have hnum : Result.leavesIpAt (s.ip + 5) (t.withValue op fun v s => .next (s.out (numberText v))) :=
    t.withValue_leavesIpAt op fun _ u hu => Result.leavesIpAt_next (hu.trans ht)
  cases op with
  | imm a => exact Result.leavesIpAt_next ht
  | reg c => exact hnum
  | mem a => exact hnum
  | unknown => exact hnum

theorem State.consume_z (n : Nat) (s : State) : (s.consume n).z = s.flags.getLsbD 0 := by
  rw [State.consume_eq]
  rfl

theorem execJe_leavesIpAt (target : Word) (s : State) :
    Result.leavesIpAt (if s.flags.getLsbD 0 = true then target else s.ip + 4) (execJe target s) := by
  refine Result.leavesIpAt_next ?_
  rw [State.consume_z]
  split
  · rfl
  · exact s.consume_ip addressBytes

theorem execJne_leavesIpAt (target : Word) (s : State) :
    Result.leavesIpAt (if s.flags.getLsbD 0 = true then s.ip + 4 else target) (execJne target s) := by
  refine Result.leavesIpAt_next ?_
  rw [State.consume_z]
  split
  · exact s.consume_ip addressBytes
  · rfl

theorem execRet_leavesIpAt (s : State) :
    Result.leavesIpAt (s.operandValue (.mem (s.x.get s.cfg.spCode))) (execRet s) :=
  Result.leavesIpAt_next (congrArg Prod.fst s.pop_eq)

/-- Where an instruction begun in `s` leaves `ip`, if `past` is the address past its bytes (R36). -/
def State.ipAfter (s : State) (past : Word) : Instr → Word
  | .jmp a | .call a => a
  | .je a => if s.flags.getLsbD 0 = true then a else past
  | .jne a => if s.flags.getLsbD 0 = true then past else a
  | .ret => s.operandValue (.mem (s.x.get s.cfg.spCode))
  | _ => past

/-- An instruction's rule begins at the byte after the opcode, so its fields take one byte less than its encoding. -/
theorem exec_leavesIpAt (i : Instr) (s : State) :
    Result.leavesIpAt (s.ipAfter (s.ip + BitVec.ofNat 32 (i.length - 1)) i) (exec i s) := by
  cases i with
  | mov d src => exact execMov_leavesIpAt d src s
  | add d src => exact binaryOp_leavesIpAt (fun a b => a + b) d src s
  | sub d src => exact binaryOp_leavesIpAt (fun a b => a - b) d src s
  | cmp d src => exact execCmp_leavesIpAt d src s
  | jmp a => exact Result.leavesIpAt_next rfl
  | je a => exact execJe_leavesIpAt a s
  | jne a => exact execJne_leavesIpAt a s
  | call a => exact Result.leavesIpAt_next rfl
  | ret => exact execRet_leavesIpAt s
  | push r => exact execPush_leavesIpAt r s
  | pop r => exact execPop_leavesIpAt r s
  | inc r => exact registerOp_leavesIpAt (fun v => v + 1) r s
  | dec r => exact registerOp_leavesIpAt (fun v => v - 1) r s
  | int v => exact execInt_leavesIpAt v s
  | nop => exact Result.leavesIpAt_next (BitVec.add_zero s.ip).symm
  | hlt => exact Result.leavesIpAt_next (BitVec.add_zero s.ip).symm
  | and d src => exact binaryOp_leavesIpAt (fun a b => a &&& b) d src s
  | or d src => exact binaryOp_leavesIpAt (fun a b => a ||| b) d src s
  | xor d src => exact binaryOp_leavesIpAt (fun a b => a ^^^ b) d src s
  | input r => exact execInput_leavesIpAt r s
  | print o => exact execPrint_leavesIpAt o s

/-! ### The turn and the encoded length (R36, R101, R200) -/

theorem step_eq_dispatch {s : State} (h : s.inLoop) : step s = s.dispatch := by
  obtain ⟨hstop, hphase, hcap, hrun, hip⟩ := h
  simp [step, hstop, hphase, hcap, hrun, BitVec.not_le.2 hip]

theorem step_eq_exec {s : State} {i : Instr} {rest : List Byte} (h : s.inLoop)
    (hd : decode s.cfg.opc s.instrBytes = .ok (i, rest)) : step s = exec i s.afterOpcode := by
  rw [step_eq_dispatch h, State.dispatch, hd]

theorem length_eq_fieldBytes_succ (i : Instr) : i.length = i.fieldBytes.length + 1 := by
  cases i <;> rfl

theorem length_encode (opc : OpcodeMap) (i : Instr) : (encode opc i).length = i.length :=
  (length_eq_fieldBytes_succ i).symm

theorem Form.length_mem (f : Form) : f.length ∈ [1, 2, 5, 6, 11] := by
  cases f <;> decide

/-- The address past an instruction's bytes, counted from the byte after its opcode and from the opcode. -/
theorem past_fields_eq_past_instr (a : Word) (i : Instr) :
    a + 1 + BitVec.ofNat 32 (i.length - 1) = a + BitVec.ofNat 32 i.length := by
  rw [length_eq_fieldBytes_succ]
  exact add_one_add_ofNat a i.fieldBytes.length

/-- Settles O47: the rule of the decoded instruction begins past the opcode byte, with the registers, the flags and the
memory of the turn. -/
theorem ipAdvancesByTheEncodedLength : Obligations.IpAdvancesByTheEncodedLength := by
  intro s t i rest hloop hdec hstep hrun
  refine ⟨⟨length_encode _ i, Form.length_mem _⟩, ?_⟩
  have hip := exec_leavesIpAt i s.afterOpcode t (step_eq_exec hloop hdec ▸ hstep) hrun
  rw [hip, State.afterOpcode_eq, past_fields_eq_past_instr]
  cases i <;> rfl

end Sys2Proof.Machine
end

section
/-! PROOFS. The family of 30_encoding.md: the layout of each form (R102 to R108). -/

namespace Sys2Proof

/-- The legal raw register bytes of R103. -/
theorem regByteOk_iff (r : Byte) : regByteOk r = true ↔ 1 ≤ r.toNat ∧ r.toNat ≤ 8 := by
  simp [regByteOk, BitVec.le_def]

/-- The four bytes of an address or a payload by their bits, the least significant first (R105, R108). -/
theorem le32Bytes_eq_extractLsb' (v : Word) :
    le32Bytes v = [v.extractLsb' 0 8, v.extractLsb' 8 8, v.extractLsb' 16 8, v.extractLsb' 24 8] := rfl

/-- The five bytes of a tagged operand, the tag at the lowest address (R108). -/
theorem TaggedOperand.bytes_eq_extractLsb' (o : TaggedOperand) :
    o.bytes = [o.tag, o.payload.extractLsb' 0 8, o.payload.extractLsb' 8 8, o.payload.extractLsb' 16 8,
      o.payload.extractLsb' 24 8] :=
  congrArg (o.tag :: ·) (le32Bytes_eq_extractLsb' o.payload)

/-- Unary-address: the opcode and the target, every target legal (R105). -/
theorem addressForms_layout (opc : OpcodeMap) {p : (Word → Instr) × Byte}
    (hp : p ∈ [(Instr.jmp, opc.jmp), (Instr.je, opc.je), (Instr.jne, opc.jne), (Instr.call, opc.call)]) (t : Word) :
    encode opc (p.1 t) = p.2 :: le32Bytes t ∧ (p.1 t).wellFormed = true := by
  simp only [List.mem_cons, List.not_mem_nil, or_false] at hp
  rcases hp with rfl | rfl | rfl | rfl <;> exact ⟨rfl, rfl⟩

/-- Binary-operand: the opcode, the destination and the source (R106). -/
theorem binaryForms_layout (opc : OpcodeMap) {p : (TaggedOperand → TaggedOperand → Instr) × Byte}
    (hp : p ∈ [(Instr.mov, opc.mov), (Instr.add, opc.add), (Instr.sub, opc.sub), (Instr.cmp, opc.cmp),
      (Instr.and, opc.and), (Instr.or, opc.or), (Instr.xor, opc.xor)]) (d src : TaggedOperand) :
    encode opc (p.1 d src) = p.2 :: (d.bytes ++ src.bytes) := by
  simp only [List.mem_cons, List.not_mem_nil, or_false] at hp
  rcases hp with rfl | rfl | rfl | rfl | rfl | rfl | rfl <;> rfl

/-- Print: the opcode and one tagged operand (R107). -/
theorem encode_print (opc : OpcodeMap) (o : TaggedOperand) : encode opc (.print o) = opc.print :: o.bytes := rfl

/-- Settles O12, form by form: the forms of one raw byte by the definition of the encoder, the others by the bytes of an
address and of a tagged operand. -/
theorem formsHaveTheirLayout : Obligations.FormsHaveTheirLayout := by
  intro opc
  refine ⟨⟨rfl, rfl, rfl⟩, fun r => ?_, fun v => ⟨rfl, rfl⟩, fun p hp t => ?_, fun p hp d src => ?_, fun o => ?_⟩
  · have hr := regByteOk_iff r
    exact ⟨rfl, rfl, rfl, rfl, rfl, hr, hr, hr, hr, hr⟩
  · rw [← le32Bytes_eq_extractLsb']
    exact addressForms_layout opc hp t
  · rw [binaryForms_layout opc hp, d.bytes_eq_extractLsb', src.bytes_eq_extractLsb']
    rfl
  · rw [encode_print, o.bytes_eq_extractLsb']

end Sys2Proof
end

section
/-! PROOFS. The family of 42_control.md: the unconditional jump (R280). -/

namespace Sys2Proof.Machine

/-- JMP consumes its address field, then overwrites the `ip` that left. -/
theorem exec_jmp_eq_setIp (target : Word) (s : State) :
    exec (.jmp target) s = .next ((s.consume addressBytes).setIp target) := rfl

/-- Settles O25: consuming the address field changes `ip` and the records alone, and the jump overwrites that `ip`. -/
theorem jmpJumpsUnconditionally : Obligations.JmpJumpsUnconditionally := by
  intro s target
  rw [exec_jmp_eq_setIp, State.consume_eq]
  rfl

end Sys2Proof.Machine
end

section
/-! PROOFS. The family of 44_system_io.md: NOP (R342). -/

namespace Sys2Proof.Machine

/-- Settles O37, by definition: NOP is niladic (R102), so its rule consumes no field and hands on the state the opcode
fetch left. -/
theorem nopDoesNothing : Obligations.NopDoesNothing := by
  intro s
  rfl

end Sys2Proof.Machine
end

section
/-! PROOFS. The decoder and the encoder are inverse to each other (30_encoding.md sections 1 to 3), and the words of
95_test_vectors.md. -/

namespace Sys2Proof

/-! ### The decoder reads an encoding back (R101 to R108) -/

/-- The facts of `Laws/PerInstr`, gathered over the 21 instructions. -/
theorem fields_statement (i : Instr) : Laws.Encoding.Statement i := by
  cases i with
  | mov d src => exact Laws.Encoding.mov d src
  | add d src => exact Laws.Encoding.add d src
  | sub d src => exact Laws.Encoding.sub d src
  | cmp d src => exact Laws.Encoding.cmp d src
  | jmp t => exact Laws.Encoding.jmp t
  | je t => exact Laws.Encoding.je t
  | jne t => exact Laws.Encoding.jne t
  | call t => exact Laws.Encoding.call t
  | ret => exact Laws.Encoding.ret
  | push r => exact Laws.Encoding.push r
  | pop r => exact Laws.Encoding.pop r
  | inc r => exact Laws.Encoding.inc r
  | dec r => exact Laws.Encoding.dec r
  | int v => exact Laws.Encoding.int v
  | nop => exact Laws.Encoding.nop
  | hlt => exact Laws.Encoding.hlt
  | and d src => exact Laws.Encoding.and d src
  | or d src => exact Laws.Encoding.or d src
  | xor d src => exact Laws.Encoding.xor d src
  | input r => exact Laws.Encoding.input r
  | print o => exact Laws.Encoding.print o

/-- Settles O10: the opcode byte dispatches to the instruction's mnemonic, whose field decoder reads the fields back. -/
theorem decodeInvertsEncode : Obligations.DecodeInvertsEncode := by
  intro opc i rest hinj
  obtain ⟨-, hfields⟩ := fields_statement i
  rw [encode, List.cons_append, decode, OpcodeMap.mnemonicOf_code hinj]
  exact hfields rest

/-! ### What each field decoder accepts -/

/-- The decoder's answer `r` on the bytes `bs` is faithful for the mnemonic `m`: an instruction it reads is one of `m`,
and its field bytes followed by what is left are `bs`. -/
def ReadsFields (m : Mnemonic) (bs : List Byte) (r : Decoded) : Prop :=
  ∀ i rest, r = .ok (i, rest) → i.mnemonic = m ∧ i.fieldBytes ++ rest = bs

theorem readsFields_niladic {m : Mnemonic} {i : Instr} (hm : i.mnemonic = m) (hf : i.fieldBytes = [])
    (bs : List Byte) : ReadsFields m bs (decodeNiladic i bs) := by
  rintro _ _ ⟨⟩
  exact ⟨hm, by rw [hf, List.nil_append]⟩

theorem readsFields_rawByte {m : Mnemonic} {mk : Byte → Instr} (hm : ∀ b, (mk b).mnemonic = m)
    (hf : ∀ b, (mk b).fieldBytes = [b]) (bs : List Byte) : ReadsFields m bs (decodeRawByte mk bs) := by
  intro i rest h
  unfold decodeRawByte at h
  split at h
  · cases h
    exact ⟨hm _, by rw [hf]; rfl⟩
  · cases h

theorem readsFields_address {m : Mnemonic} {mk : Word → Instr} (hm : ∀ t, (mk t).mnemonic = m)
    (hf : ∀ t, (mk t).fieldBytes = le32Bytes t) (bs : List Byte) : ReadsFields m bs (decodeAddress mk bs) := by
  intro i rest h
  unfold decodeAddress at h
  split at h
  · cases h
    exact ⟨hm _, by rw [hf, le32Bytes_le32]; rfl⟩
  · cases h

theorem readsFields_operand {m : Mnemonic} {mk : TaggedOperand → Instr} (hm : ∀ o, (mk o).mnemonic = m)
    (hf : ∀ o, (mk o).fieldBytes = o.bytes) (bs : List Byte) : ReadsFields m bs (decodeOperand mk bs) := by
  intro i rest h
  unfold decodeOperand at h
  split at h
  · cases h
    exact ⟨hm _, by rw [hf, TaggedOperand.bytes, le32Bytes_le32]; rfl⟩
  · cases h

theorem readsFields_binary {m : Mnemonic} {mk : TaggedOperand → TaggedOperand → Instr}
    (hm : ∀ d src, (mk d src).mnemonic = m) (hf : ∀ d src, (mk d src).fieldBytes = d.bytes ++ src.bytes)
    (bs : List Byte) : ReadsFields m bs (decodeBinary mk bs) := by
  intro i rest h
  unfold decodeBinary at h
  split at h
  · cases h
    exact ⟨hm _ _, by rw [hf, TaggedOperand.bytes, TaggedOperand.bytes, le32Bytes_le32, le32Bytes_le32]; rfl⟩
  · cases h

/-- The field decoder of a mnemonic reads instructions of that mnemonic, and drops no byte. -/
theorem readsFields_decodeFields (m : Mnemonic) (bs : List Byte) : ReadsFields m bs (decodeFields m bs) := by
  cases m with
  | mov | add | sub | cmp | and | or | xor => exact readsFields_binary (fun _ _ => by rfl) (fun _ _ => by rfl) bs
  | jmp | je | jne | call => exact readsFields_address (fun _ => by rfl) (fun _ => by rfl) bs
  | ret | nop | hlt => exact readsFields_niladic rfl rfl bs
  | push | pop | inc | dec | int | input => exact readsFields_rawByte (fun _ => by rfl) (fun _ => by rfl) bs
  | print => exact readsFields_operand (fun _ => by rfl) (fun _ => by rfl) bs

/-- An opcode byte that dispatches to a mnemonic is that mnemonic's (R111). -/
theorem OpcodeMap.code_of_mnemonicOf {opc : OpcodeMap} {b : Byte} {m : Mnemonic} (h : opc.mnemonicOf b = some m) :
    opc.code m = b := by
  simpa using List.find?_some h

/-- Settles O11: the opcode byte is the one of the mnemonic it dispatched to, and the field decoder dropped no byte. -/
theorem encodeInvertsDecode : Obligations.EncodeInvertsDecode := by
  intro opc bs i rest h
  cases bs with
  | nil => cases h
  | cons op bs =>
    rw [decode] at h
    cases hm : opc.mnemonicOf op with
    | none =>
      rw [hm] at h
      cases h
    | some m =>
      rw [hm] at h
      obtain ⟨rfl, hbytes⟩ := readsFields_decodeFields m bs i rest h
      rw [encode, OpcodeMap.code_of_mnemonicOf hm, List.cons_append, hbytes]

/-- Settles O13: nine words of the reference assignment, each decoded in the kernel. -/
theorem specWordsDecode : Obligations.SpecWordsDecode := by
  unfold Obligations.SpecWordsDecode
  decide

end Sys2Proof
end

section
/-! PROOFS. What every step of a run keeps: the invariant, and the order and the growth of the channels. Each property
is one that every elementary change of `Laws/Exec` keeps. -/

namespace Sys2Proof.Machine

/-! ### The invariant -/

/-- The invariant mentions the configuration, the memory, the vector table, the flags and `CODE_END`: a state that has
the same of each has it too. -/
theorem State.Inv.congr {s t : State} (h : s.Inv) (hcfg : t.cfg = s.cfg) (hmem : t.mem = s.mem) (hivt : t.ivt = s.ivt)
    (hflags : t.flags = s.flags) (hend : t.codeEnd = s.codeEnd) : t.Inv := by
  simpa only [State.Inv, State.memWf, State.flagsReservedZero, State.codeEndOk, hcfg, hmem, hivt, hflags, hend] using h

/-- Only a write of memory and a write of the flags touch what the invariant is about: the write of memory lies in the
buffer, and the flags are written with zero reserved bits. -/
theorem Update.keeps_inv {s t : State} (h : Update s t) (hs : s.Inv) : t.Inv := by
  cases h with
  | mem a bytes hfit =>
    obtain ⟨hvalid, hmem, hrest⟩ := hs
    exact ⟨hvalid, Memory.wfBelow_putBytes bytes hmem hfit, hrest⟩
  | flags z n =>
    obtain ⟨hvalid, hmem, hivt, -, hend⟩ := hs
    exact ⟨hvalid, hmem, hivt, by simp [State.flagsReservedZero, reserved_flagsWord], hend⟩
  | reg | ip | report | out | stop | halt | line | call => exact hs.congr rfl rfl rfl rfl rfl

theorem Updates.keeps_inv {s t : State} (h : Updates s t) (hs : s.Inv) : t.Inv := by
  induction h with
  | refl => exact hs
  | tail _ hu ih => exact hu.keeps_inv ih

/-- Consuming the opcode byte and using up a turn of the cap. -/
theorem State.Inv.afterOpcode {s : State} (h : s.Inv) : s.afterOpcode.Inv :=
  (State.updates_consumeByte s.useTurn).keeps_inv (h.congr rfl rfl rfl rfl rfl)

/-- Settles O44, over what a step can do: a stop changes no field of the invariant, and an instruction is a chain of
elementary changes. -/
theorem everyStepKeepsTheInvariant : Obligations.EveryStepKeepsTheInvariant := by
  intro s t hs hstep
  obtain ⟨-, -, ⟨-, rfl⟩ | ⟨-, -, rfl⟩ | ⟨-, -, -, rfl⟩ | ⟨-, -, rfl⟩ | ⟨-, i, rest, -, hexec⟩⟩ := step_cases hstep
  · exact hs.congr rfl rfl rfl rfl rfl
  · exact hs.congr rfl rfl rfl rfl rfl
  · exact hs.congr rfl rfl rfl rfl rfl
  · exact hs.afterOpcode.congr rfl rfl rfl rfl rfl
  · exact (exec_updates i hexec).keeps_inv hs.afterOpcode

/-! ### Channels, table and latch -/

/-- `t` is `s` with records and output appended and input lines taken from the front; the vector table, `CODE_END`, the
configuration and the phase are those of `s`. -/
structure Grows (s t : State) : Prop where
  diags : s.diags <+: t.diags
  output : s.output <+: t.output
  input : t.input <:+ s.input
  ivt : t.ivt = s.ivt
  codeEnd : t.codeEnd = s.codeEnd
  cfg : t.cfg = s.cfg
  phase : t.phase = s.phase

theorem Grows.refl (s : State) : Grows s s :=
  ⟨List.prefix_rfl, List.prefix_rfl, List.suffix_rfl, rfl, rfl, rfl, rfl⟩

theorem Grows.trans {s t u : State} (h : Grows s t) (k : Grows t u) : Grows s u :=
  ⟨h.diags.trans k.diags, h.output.trans k.output, k.input.trans h.input, k.ivt.trans h.ivt,
    k.codeEnd.trans h.codeEnd, k.cfg.trans h.cfg, k.phase.trans h.phase⟩

theorem Update.grows {s t : State} (h : Update s t) : Grows s t := by
  cases h with
  | report d hd => exact { Grows.refl s with diags := List.prefix_append _ _ }
  | out bytes => exact { Grows.refl s with output := List.prefix_append _ _ }
  | line l rest hin => exact { Grows.refl s with input := hin ▸ List.suffix_cons l rest }
  | reg | ip | stop | mem | flags | halt | call => exact { Grows.refl s with }

theorem Updates.grows {s t : State} (h : Updates s t) : Grows s t := by
  induction h with
  | refl => exact .refl s
  | tail _ hu ih => exact ih.trans hu.grows

theorem State.grows_afterOpcode (s : State) : Grows s s.afterOpcode :=
  have hturn : Grows s s.useTurn := { Grows.refl s with }
  hturn.trans (State.updates_consumeByte s.useTurn).grows

/-- Whatever next state a step answers, the channels grew and the table, the latch, the configuration and the phase
stayed. -/
theorem step_grows {s t : State} (h : step s = .next t) : Grows s t := by
  obtain ⟨-, -, ⟨-, rfl⟩ | ⟨-, -, rfl⟩ | ⟨-, -, -, rfl⟩ | ⟨-, -, rfl⟩ | ⟨-, i, rest, -, hexec⟩⟩ := step_cases h
  · exact (Update.stop s _).grows
  · exact (Update.stop s _).grows
  · exact (Update.stop s _).grows
  · exact (s.grows_afterOpcode.trans (Update.report _ _ le_rfl).grows).trans (Update.stop _ _).grows
  · exact s.grows_afterOpcode.trans (exec_updates i hexec).grows

/-- Settles O45: `Grows` is the conjunction of its clauses. -/
theorem stepsOnlyGrowChannelsAndKeepTheTable : Obligations.StepsOnlyGrowChannelsAndKeepTheTable := by
  intro s t h
  obtain ⟨hdiags, hout, hin, hivt, hend, hcfg, hphase⟩ := step_grows h
  exact ⟨hdiags, hout, hin, hivt, hend, hcfg, hphase⟩

end Sys2Proof.Machine
end

section
/-! PROOFS. Nothing reads N (10_state.md section 3). Two states that differ in flag bits other than Z alone stay so
through every shared operation, so through every stage of an instruction, every instruction and every step. -/

namespace Sys2Proof.Machine

/-- `u` is `s` but for flag bits other than Z. -/
def State.SameButFlags (s u : State) : Prop := ∃ f : Word, f.getLsbD 0 = s.flags.getLsbD 0 ∧ u = s.setFlags f

/-- Two answers of one kind: next states that differ in flag bits other than Z alone, or the same fault or refusal. -/
inductive Result.SameButFlags : Result → Result → Prop where
  | next {s u : State} (h : s.SameButFlags u) : Result.SameButFlags (.next s) (.next u)
  | fault (e : Fault) : Result.SameButFlags (.fault e) (.fault e)
  | refused (e : Refusal) : Result.SameButFlags (.refused e) (.refused e)

/-- An operation that keeps Z and commutes with a write of the flags keeps two states the same but for the other
bits. -/
theorem State.SameButFlags.map {s u : State} (h : s.SameButFlags u) (op : State → State)
    (hz : (op s).flags = s.flags) (hop : ∀ f, op (s.setFlags f) = (op s).setFlags f) :
    (op s).SameButFlags (op u) := by
  obtain ⟨f, hf, rfl⟩ := h
  exact ⟨f, by rw [hf, hz], hop f⟩

theorem State.SameButFlags.cfg_eq {s u : State} (h : s.SameButFlags u) : u.cfg = s.cfg := by
  obtain ⟨f, -, rfl⟩ := h
  rfl

theorem State.SameButFlags.ivt_eq {s u : State} (h : s.SameButFlags u) : u.ivt = s.ivt := by
  obtain ⟨f, -, rfl⟩ := h
  rfl

theorem State.SameButFlags.z_eq {s u : State} (h : s.SameButFlags u) : u.z = s.z := by
  obtain ⟨f, hf, rfl⟩ := h
  exact hf

theorem State.SameButFlags.refl (s : State) : s.SameButFlags s := ⟨s.flags, rfl, rfl⟩

/-! ### The shared operations -/

section operations
variable (s : State) (f : Word)

theorem State.consume_setFlags (n : Nat) : (s.setFlags f).consume n = (s.consume n).setFlags f := by
  rw [State.consume_eq, State.consume_eq]
  rfl

theorem State.memRead_setFlags (w : Width) (a : Word) :
    (s.setFlags f).memRead w a = ((s.memRead w a).1, (s.memRead w a).2.setFlags f) := by
  unfold State.memRead
  rw [show (s.setFlags f).inBuffer a (Width.bytes w) = s.inBuffer a (Width.bytes w) from rfl]
  split
  · cases w <;> rfl
  · rfl

theorem State.memWrite_setFlags (w : Width) (a v : Word) :
    (s.setFlags f).memWrite w a v = (s.memWrite w a v).setFlags f := by
  unfold State.memWrite
  rw [show (s.setFlags f).inBuffer a (Width.bytes w) = s.inBuffer a (Width.bytes w) from rfl]
  split <;> rfl

theorem State.push_setFlags (v : Word) : (s.setFlags f).push v = (s.push v).setFlags f :=
  State.memWrite_setFlags (s.setReg _ _) f .word _ v

theorem State.pop_setFlags : (s.setFlags f).pop = (s.pop.1, s.pop.2.setFlags f) := by
  rw [State.pop_eq, State.pop_eq]
  rfl

theorem State.writeNonwritable_setFlags (tag : Byte) :
    (s.setFlags f).writeNonwritable tag = (s.writeNonwritable tag).setFlags f := by
  unfold State.writeNonwritable
  rw [State.setFlags_cfg]
  split <;> rfl

theorem State.writeOperand_setFlags (o : Operand) (v : Word) :
    (s.setFlags f).writeOperand o v = (s.writeOperand o v).setFlags f := by
  cases o with
  | reg c => rfl
  | mem a => exact s.memWrite_setFlags f .word a v
  | imm w => exact s.writeNonwritable_setFlags f _
  | unknown => exact s.writeNonwritable_setFlags f _

theorem State.inputValue_setFlags (c : RegCode) (line : Text) :
    (s.setFlags f).inputValue c line = (s.inputValue c line).setFlags f := by
  unfold State.inputValue
  rw [State.setFlags_cfg]
  split <;> rfl

theorem State.handlerAct_setFlags (act : HandlerAct) :
    (s.setFlags f).handlerAct act = (s.handlerAct act).setFlags f := by
  cases act with
  | setReg c v => rfl
  | load w a => exact congrArg Prod.snd (s.memRead_setFlags f w a)
  | store w a v => exact s.memWrite_setFlags f w a v
  | print bytes => rfl

theorem State.handlerActs_setFlags (acts : List HandlerAct) (s : State) :
    (s.setFlags f).handlerActs acts = (s.handlerActs acts).setFlags f := by
  induction acts generalizing s with
  | nil => rfl
  | cons act acts ih =>
    rw [State.handlerActs, List.foldl_cons, State.handlerAct_setFlags]
    exact ih _

theorem State.afterHandler_setFlags (run : HandlerRun) :
    (s.setFlags f).afterHandler run = (s.afterHandler run).setFlags f :=
  State.handlerActs_setFlags f run.acts { s with hostCalls := s.hostCalls + 1 }

/-- A handler cannot see the flags (R420). -/
theorem State.handlerRun_setFlags (h : Handler) : (s.setFlags f).handlerRun h = s.handlerRun h := by
  cases h <;> rfl

theorem State.fetchBytes_setFlags (n : Nat) (a : Word) : (s.setFlags f).fetchBytes n a = s.fetchBytes n a := by
  induction n generalizing a with
  | zero => rfl
  | succ n ih =>
    rw [State.fetchBytes, State.fetchBytes, ih]
    rfl

theorem State.stringFrom_setFlags (n a : Nat) : (s.setFlags f).stringFrom n a = s.stringFrom n a := by
  induction n generalizing a with
  | zero => rfl
  | succ n ih =>
    rw [State.stringFrom, State.stringFrom, ih]
    rfl

end operations

/-! ### The operations that keep the flags -/

@[simp] theorem State.consume_flags (n : Nat) (s : State) : (s.consume n).flags = s.flags := by
  rw [State.consume_eq]

@[simp] theorem State.memRead_flags (s : State) (w : Width) (a : Word) : (s.memRead w a).2.flags = s.flags := by
  unfold State.memRead
  split <;> rfl

@[simp] theorem State.memWrite_flags (s : State) (w : Width) (a v : Word) :
    (s.memWrite w a v).flags = s.flags := by
  unfold State.memWrite
  split <;> rfl

@[simp] theorem State.push_flags (s : State) (v : Word) : (s.push v).flags = s.flags := by rw [State.push_eq]

@[simp] theorem State.pop_flags (s : State) : s.pop.2.flags = s.flags := by rw [State.pop_eq]

@[simp] theorem State.writeNonwritable_flags (s : State) (tag : Byte) :
    (s.writeNonwritable tag).flags = s.flags := by
  unfold State.writeNonwritable
  split <;> rfl

@[simp] theorem State.writeOperand_flags (s : State) (o : Operand) (v : Word) :
    (s.writeOperand o v).flags = s.flags := by
  cases o with
  | reg c => rfl
  | mem a => exact s.memWrite_flags .word a v
  | imm w => exact s.writeNonwritable_flags _
  | unknown => exact s.writeNonwritable_flags _

@[simp] theorem State.inputValue_flags (s : State) (c : RegCode) (line : Text) :
    (s.inputValue c line).flags = s.flags := by
  unfold State.inputValue
  split <;> rfl

theorem State.handlerAct_flags (s : State) (act : HandlerAct) : (s.handlerAct act).flags = s.flags := by
  cases act with
  | setReg c v => rfl
  | load w a => exact s.memRead_flags w a
  | store w a v => exact s.memWrite_flags w a v
  | print bytes => rfl

theorem State.handlerActs_flags (acts : List HandlerAct) (s : State) : (s.handlerActs acts).flags = s.flags := by
  induction acts generalizing s with
  | nil => rfl
  | cons act acts ih => exact (ih _).trans (s.handlerAct_flags act)

/-- A handler reaches registers, memory and the output only (R420), so it cannot write the flags. -/
@[simp] theorem State.afterHandler_flags (s : State) (run : HandlerRun) : (s.afterHandler run).flags = s.flags :=
  State.handlerActs_flags _ _

theorem State.SameButFlags.consume {s u : State} (h : s.SameButFlags u) (n : Nat) :
    (s.consume n).SameButFlags (u.consume n) :=
  h.map _ (s.consume_flags n) fun f => s.consume_setFlags f n

theorem State.SameButFlags.raise {s u : State} (h : s.SameButFlags u) (info : UndefinedInfo) :
    (s.raise info).SameButFlags (u.raise info) :=
  h.map (State.raise · info) (s.raise_flags info) fun _ => rfl

theorem State.SameButFlags.setIp {s u : State} (h : s.SameButFlags u) (t : Word) :
    (s.setIp t).SameButFlags (u.setIp t) :=
  h.map (State.setIp · t) (s.setIp_flags t) fun _ => rfl

/-! ### The stages of an instruction

Each stage hands the rest of the instruction what it handed on before, in a state that is the same but for flag bits
other than Z. -/

namespace Result.SameButFlags

theorem withOperand {s u : State} (h : s.SameButFlags u) (o : TaggedOperand) {rest : Operand → State → Result}
    (hrest : ∀ op s u, s.SameButFlags u → Result.SameButFlags (rest op s) (rest op u)) :
    Result.SameButFlags (s.withOperand o rest) (u.withOperand o rest) := by
  cases hu : unpack s.cfg o with
  | ok op =>
    rw [State.withOperand_ok hu, State.withOperand_ok (by rwa [h.cfg_eq])]
    exact hrest op _ _ (h.consume 5)
  | error info =>
    rw [State.withOperand_error hu, State.withOperand_error (by rwa [h.cfg_eq])]
    exact .next ((h.consume 5).raise info)

theorem withReg {s u : State} (h : s.SameButFlags u) (b : Byte) {rest : RegCode → State → Result}
    (hrest : ∀ c s u, s.SameButFlags u → Result.SameButFlags (rest c s) (rest c u)) :
    Result.SameButFlags (s.withReg b rest) (u.withReg b rest) := by
  cases hd : decodeReg s.cfg b with
  | ok c =>
    rw [State.withReg_ok hd, State.withReg_ok (by rwa [h.cfg_eq])]
    exact hrest c _ _ (h.consume 1)
  | error info =>
    rw [State.withReg_error hd, State.withReg_error (by rwa [h.cfg_eq])]
    exact .next ((h.consume 1).raise info)

theorem withValue {s u : State} (h : s.SameButFlags u) (o : Operand) {rest : Word → State → Result}
    (hrest : ∀ v s u, s.SameButFlags u → Result.SameButFlags (rest v s) (rest v u)) :
    Result.SameButFlags (s.withValue o rest) (u.withValue o rest) := by
  have hcan : u.canRead o = s.canRead o := by
    obtain ⟨f, -, rfl⟩ := h
    exact s.canRead_flags f o
  cases hr : s.canRead o with
  | true =>
    rw [State.withValue_readable hr, State.withValue_readable (hcan.trans hr)]
    obtain ⟨f, hf, rfl⟩ := h
    have hval : (s.setFlags f).operandValue o = s.operandValue o := s.operandValue_flags f o
    have hrep : (s.setFlags f).readReports o = s.readReports o := s.readReports_flags f o
    rw [hval, hrep]
    exact hrest _ _ _ ⟨f, hf, rfl⟩
  | false =>
    rw [State.withValue_unreadable hr, State.withValue_unreadable (hcan.trans hr)]
    exact .next (h.raise _)

theorem writeOperand {s u : State} (h : s.SameButFlags u) (o : Operand) (v : Word) :
    Result.SameButFlags (.next (s.writeOperand o v)) (.next (u.writeOperand o v)) :=
  .next (h.map (State.writeOperand · o v) (s.writeOperand_flags o v) fun f => s.writeOperand_setFlags f o v)

theorem hostCall {s u : State} (h : s.SameButFlags u) (g : Handler) :
    Result.SameButFlags (s.hostCall g) (u.hostCall g) := by
  obtain ⟨f, hf, rfl⟩ := h
  unfold State.hostCall
  rw [State.handlerRun_setFlags, State.afterHandler_setFlags]
  have hz : f.getLsbD 0 = (s.afterHandler (s.handlerRun g)).flags.getLsbD 0 := by rw [State.afterHandler_flags, hf]
  cases (s.handlerRun g).ending with
  | ret => exact .next ⟨f, hz, rfl⟩
  | exit => exact .next ⟨f, hz, rfl⟩
  | blocks => exact .fault _

/-! ### Every instruction -/

theorem execMov {s u : State} (h : s.SameButFlags u) (d src : TaggedOperand) :
    Result.SameButFlags (execMov d src s) (execMov d src u) :=
  withOperand h d fun od _ _ h => withOperand h src fun os _ _ h => withValue h os fun v _ _ h =>
    writeOperand h od v

theorem binaryOp {s u : State} (h : s.SameButFlags u) (f : Word → Word → Word) (d src : TaggedOperand) :
    Result.SameButFlags (binaryOp f d src s) (binaryOp f d src u) :=
  withOperand h d fun od _ _ h => withOperand h src fun os _ _ h => withValue h od fun a _ _ h =>
    withValue h os fun b _ _ h => writeOperand h od (f a b)

/-- CMP overwrites the flags in full, so it leaves one and the same state. -/
theorem execCmp {s u : State} (h : s.SameButFlags u) (d src : TaggedOperand) :
    Result.SameButFlags (execCmp d src s) (execCmp d src u) :=
  withOperand h d fun od _ _ h => withOperand h src fun os _ _ h => withValue h od fun a _ _ h =>
    withValue h os fun b s _ h => .next (by
      obtain ⟨f, -, rfl⟩ := h
      exact .refl (s.setFlags (compareFlags a b)))

theorem registerOp {s u : State} (h : s.SameButFlags u) (f : Word → Word) (r : Byte) :
    Result.SameButFlags (registerOp f r s) (registerOp f r u) :=
  withReg h r fun c _ _ h => .next (h.map (fun s => s.setReg c (f (s.reg c))) rfl fun _ => rfl)

theorem execJmp {s u : State} (h : s.SameButFlags u) (target : Word) :
    Result.SameButFlags (execJmp target s) (execJmp target u) :=
  .next ((h.consume addressBytes).setIp target)

/-- JE reads Z alone. -/
theorem execJe {s u : State} (h : s.SameButFlags u) (target : Word) :
    Result.SameButFlags (execJe target s) (execJe target u) := by
  have hc := h.consume addressBytes
  refine .next ?_
  rw [hc.z_eq]
  split
  · exact hc.setIp target
  · exact hc

/-- JNE reads Z alone. -/
theorem execJne {s u : State} (h : s.SameButFlags u) (target : Word) :
    Result.SameButFlags (execJne target s) (execJne target u) := by
  have hc := h.consume addressBytes
  refine .next ?_
  rw [hc.z_eq]
  split
  · exact hc
  · exact hc.setIp target

theorem execCall {s u : State} (h : s.SameButFlags u) (target : Word) :
    Result.SameButFlags (execCall target s) (execCall target u) :=
  .next ((h.consume addressBytes).map (fun s => (s.push s.ip).setIp target) (State.push_flags _ _) fun f => by
    rw [State.push_setFlags]; rfl)

theorem execRet {s u : State} (h : s.SameButFlags u) : Result.SameButFlags (execRet s) (execRet u) :=
  .next (h.map (fun s => s.pop.2.setIp s.pop.1) s.pop_flags fun f => by rw [State.pop_setFlags]; rfl)

theorem execPush {s u : State} (h : s.SameButFlags u) (r : Byte) :
    Result.SameButFlags (execPush r s) (execPush r u) :=
  withReg h r fun c s _ h => .next (h.map (fun s => s.push (s.reg c)) (State.push_flags _ _) fun f =>
    s.push_setFlags f _)

theorem execPop {s u : State} (h : s.SameButFlags u) (r : Byte) :
    Result.SameButFlags (execPop r s) (execPop r u) :=
  withReg h r fun c s _ h => .next (h.map (fun s => s.pop.2.setReg c s.pop.1) s.pop_flags fun f => by
    rw [State.pop_setFlags]; rfl)

theorem execInt {s u : State} (h : s.SameButFlags u) (v : Byte) :
    Result.SameButFlags (execInt v s) (execInt v u) := by
  have hc := h.consume 1
  simp only [Machine.execInt, hc.ivt_eq]
  cases Ivt.get (s.consume 1).ivt v with
  | none => exact .next (hc.map (State.report · _) rfl fun _ => rfl)
  | some g => exact hostCall hc g

theorem execInput {s u : State} (h : s.SameButFlags u) (r : Byte) :
    Result.SameButFlags (execInput r s) (execInput r u) := by
  refine withReg h r fun c s u h => ?_
  obtain ⟨f, hf, rfl⟩ := h
  rw [State.setFlags_input]
  cases s.input with
  | nil =>
    unfold State.inputAtEnd
    rw [State.setFlags_cfg]
    cases s.cfg.inputEof with
    | stuck => exact .fault _
    | zero => exact .next ⟨f, hf, rfl⟩
  | cons line rest =>
    exact .next ⟨f, by rw [State.inputValue_flags]; exact hf,
      State.inputValue_setFlags { s with input := rest } f c line⟩

theorem execPrint {s u : State} (h : s.SameButFlags u) (o : TaggedOperand) :
    Result.SameButFlags (execPrint o s) (execPrint o u) := by
  refine withOperand h o fun op s u h => ?_
  have hnum : Result.SameButFlags (s.withValue op fun v s => .next (s.out (numberText v)))
      (u.withValue op fun v s => .next (s.out (numberText v))) :=
    withValue h op fun v _ _ h => .next (h.map (State.out · (numberText v)) rfl fun _ => rfl)
  cases op with
  | imm a =>
    exact .next (h.map (fun s => s.out (s.stringAt a)) rfl fun f => by
      rw [State.stringAt, State.stringFrom_setFlags]; rfl)
  | reg c => exact hnum
  | mem a => exact hnum
  | unknown => exact hnum

end Result.SameButFlags

/-- No instruction reads a flag bit other than Z. -/
theorem exec_sameButFlags (i : Instr) {s u : State} (h : s.SameButFlags u) :
    Result.SameButFlags (exec i s) (exec i u) := by
  cases i with
  | mov d src => exact .execMov h d src
  | add d src => exact .binaryOp h (fun a b => a + b) d src
  | sub d src => exact .binaryOp h (fun a b => a - b) d src
  | cmp d src => exact .execCmp h d src
  | jmp a => exact .execJmp h a
  | je a => exact .execJe h a
  | jne a => exact .execJne h a
  | call a => exact .execCall h a
  | ret => exact .execRet h
  | push r => exact .execPush h r
  | pop r => exact .execPop h r
  | inc r => exact .registerOp h (fun v => v + 1) r
  | dec r => exact .registerOp h (fun v => v - 1) r
  | int v => exact .execInt h v
  | nop => exact .next h
  | hlt => exact .next (h.map (fun s => { s with running := false }) rfl fun _ => rfl)
  | and d src => exact .binaryOp h (fun a b => a &&& b) d src
  | or d src => exact .binaryOp h (fun a b => a ||| b) d src
  | xor d src => exact .binaryOp h (fun a b => a ^^^ b) d src
  | input r => exact .execInput h r
  | print o => exact .execPrint h o

theorem State.afterOpcode_setFlags (s : State) (f : Word) :
    (s.setFlags f).afterOpcode = s.afterOpcode.setFlags f := by
  rw [State.afterOpcode_eq, State.afterOpcode_eq]
  rfl

theorem dispatch_sameButFlags {s : State} {f : Word} (hf : f.getLsbD 0 = s.flags.getLsbD 0) :
    Result.SameButFlags s.dispatch (s.setFlags f).dispatch := by
  have hafter : s.afterOpcode.SameButFlags (s.setFlags f).afterOpcode :=
    ⟨f, by rw [State.afterOpcode_eq]; exact hf, s.afterOpcode_setFlags f⟩
  unfold State.dispatch
  rw [State.setFlags_cfg, State.instrBytes, State.instrBytes, State.fetchBytes_setFlags, State.setFlags_ip]
  split
  · exact exec_sameButFlags _ hafter
  · exact .next (hafter.map (fun t => (t.report (.decodeFailure (s.fetchByte s.ip) s.ip)).stop .decodeFailure) rfl
      fun _ => rfl)

/-- The tests of a turn read no flag, and neither does the fetch. -/
theorem step_sameButFlags {s : State} {f : Word} (hf : f.getLsbD 0 = s.flags.getLsbD 0) :
    Result.SameButFlags (step s) (step (s.setFlags f)) := by
  have hstop (r : StopReason) : Result.SameButFlags (.next (s.stop r)) (.next ((s.setFlags f).stop r)) :=
    .next ⟨f, hf, rfl⟩
  unfold step
  rw [State.setFlags_stopReason, State.setFlags_phase, State.setFlags_hostCap, State.setFlags_running,
    State.setFlags_codeEnd, State.setFlags_ip]
  split
  · exact .fault _
  · exact .refused _
  · exact .refused _
  · split
    · exact hstop _
    · split
      · exact hstop _
      · split
        · exact hstop _
        · exact dispatch_sameButFlags hf

/-- Two such answers, clause by clause. -/
theorem Result.SameButFlags.clauses {r q : Result} (h : Result.SameButFlags r q) :
    (∀ t, r = .next t →
      ∃ u : State, q = .next u ∧ u = { t with flags := u.flags } ∧ u.flags.getLsbD 0 = t.flags.getLsbD 0) ∧
    (∀ e, r = .fault e → q = .fault e) ∧ (∀ e, r = .refused e → q = .refused e) := by
  cases h with
  | next h =>
    obtain ⟨f, hf, rfl⟩ := h
    refine ⟨fun t ht => ?_, fun e he => (nomatch he), fun e he => (nomatch he)⟩
    cases ht
    exact ⟨_, rfl, rfl, hf⟩
  | fault e => exact ⟨fun t ht => (nomatch ht), fun _ he => he, fun e he => (nomatch he)⟩
  | refused e => exact ⟨fun t ht => (nomatch ht), fun e he => (nomatch he), fun _ he => he⟩

/-- Settles O46: the two answers are of one kind, and the clauses are the three kinds. -/
theorem nothingReadsTheNegativeFlag : Obligations.NothingReadsTheNegativeFlag :=
  fun _ _ hf => (step_sameButFlags hf).clauses

end Sys2Proof.Machine
end

section
/-! PROOFS. The operand unpacker (40_fetch_decode.md section 3); MOV, the arithmetic and logic instructions, CMP, INC
and DEC (41_data_arith.md), and where an operand stops them. -/

namespace Sys2Proof.Machine

/-! ### The operand unpacker -/

theorem toByte_between (c : RegCode) : 1 ≤ c.toByte.toNat ∧ c.toByte.toNat ≤ 8 := by
  cases c <;> decide

/-- A byte outside 0x01 to 0x08 names no register (R116, D17). -/
theorem decodeReg_outside (cfg : Config) {b : Byte} (hb : b.toNat = 0 ∨ 9 ≤ b.toNat) :
    decodeReg cfg b = .error (.regCode b) := by
  unfold decodeReg
  cases hc : RegCode.ofByte? b with
  | some c =>
    have hrange := toByte_between c
    rw [RegCode.toByte_of_ofByte? hc] at hrange
    omega
  | none =>
    cases cfg.badReg
    rfl

/-- Settles O14: a tag of 0x04 or above is none of the four that are tested before the policy. -/
theorem unpackerReadsEachTag : Obligations.UnpackerReadsEachTag := by
  intro cfg p
  refine ⟨unpack_unknown cfg p, fun c hc => ?_, fun hb => ?_, unpack_imm cfg p, unpack_mem cfg p, fun t ht => ?_⟩
  · rw [unpack_reg, show byteOf 0 p = c.toByte from hc, decodeReg_toByte]
    rfl
  · exact (unpack_reg cfg p).trans (congrArg (Except.map Operand.reg) (decodeReg_outside cfg hb))
  · have hne (n : Byte) (hn : n.toNat < 4) : ¬ t = n := by
      rintro rfl
      omega
    exact (if_neg (hne 0x00 (by decide))).trans ((if_neg (hne 0x01 (by decide))).trans
      ((if_neg (hne 0x02 (by decide))).trans (if_neg (hne 0x03 (by decide)))))

/-! ### The state between the fetch of the fields and the effect

`pastWith n ds` is `s` once its next `n` bytes are consumed and the records `ds` are made. Every stage of an instruction
takes such a state to such a state, or stops in `stoppedUndefined` of it. -/

/-- `s` with its next `n` instruction bytes consumed and the records `ds` made after their fetch. -/
def State.pastWith (s : State) (n : Nat) (ds : List Diagnostic) : State :=
  { s with ip := s.ip + BitVec.ofNat 32 n, diags := s.diags ++ s.fetchReports n ++ ds }

theorem State.consume_eq_pastWith (s : State) (n : Nat) : s.consume n = s.pastWith n [] := by
  rw [State.consume_eq, State.pastWith, List.append_nil]

theorem State.pastFields_eq_pastWith (s : State) (n : Nat) : s.pastFields n = s.pastWith n [] := by
  rw [State.pastFields, State.pastWith, List.append_nil]

/-- Raising stops the instruction in the state the rules of undefined operands give (R211, R218). -/
theorem State.raise_pastWith (s : State) (n : Nat) (ds : List Diagnostic) (info : UndefinedInfo) :
    (s.pastWith n ds).raise info = s.stoppedUndefined n ds info := rfl

theorem State.withOperands_error_left {s : State} {d src : TaggedOperand} {info : UndefinedInfo}
    (hd : unpack s.cfg d = .error info) (rest : Operand → Operand → State → Result) :
    (s.withOperand d fun od s => s.withOperand src fun os s => rest od os s) =
      .next (s.stoppedUndefined 5 [] info) := by
  rw [State.withOperand_error hd, State.raise_consume]

theorem State.withOperands_error_right {s : State} {d src : TaggedOperand} {od : Operand} {info : UndefinedInfo}
    (hd : unpack s.cfg d = .ok od) (hs : unpack s.cfg src = .error info)
    (rest : Operand → Operand → State → Result) :
    (s.withOperand d fun od s => s.withOperand src fun os s => rest od os s) =
      .next (s.stoppedUndefined 10 [] info) := by
  rw [State.withOperand_ok hd, State.consume_pastFields, State.withOperand_error (s := s.pastFields 5) hs,
    State.consume_pastFields, State.pastFields_pastFields, State.pastFields_eq_pastWith, State.raise_pastWith]

theorem State.withValue_pastWith {s : State} {o : Operand} (h : s.canRead o = true) (n : Nat) (ds : List Diagnostic)
    (rest : Word → State → Result) :
    (s.pastWith n ds).withValue o rest = rest (s.operandValue o) (s.pastWith n (ds ++ s.readReports o)) := by
  have hcan : (s.pastWith n ds).canRead o = true := by cases o <;> exact h
  have hval : (s.pastWith n ds).operandValue o = s.operandValue o := by cases o <;> rfl
  have hrep : (s.pastWith n ds).readReports o = s.readReports o := by cases o <;> rfl
  rw [State.withValue_readable hcan, hval, hrep]
  simp only [State.pastWith, List.append_assoc]

theorem State.withValue_pastWith_stops {s : State} {o : Operand} (h : s.canRead o = false) (n : Nat)
    (ds : List Diagnostic) (rest : Word → State → Result) :
    (s.pastWith n ds).withValue o rest = .next (s.stoppedUndefined n ds (.tag 0x00)) := by
  have hcan : (s.pastWith n ds).canRead o = false := by cases o <;> exact h
  rw [State.withValue_unreadable hcan, State.raise_pastWith]

/-- `s` past its fields and the records `ds`, with the value `v` written to the operand `o`. -/
def State.wrote (s : State) (n : Nat) (ds : List Diagnostic) (o : Operand) (v : Word) : State :=
  { s with
    ip := s.ip + BitVec.ofNat 32 n
    x := s.writtenRegs o v
    mem := s.writtenMem o v
    diags := s.diags ++ s.fetchReports n ++ ds ++ s.writeReports o }

theorem State.writeOperand_pastWith {s : State} {o : Operand} (h : s.canWrite o = true) (n : Nat)
    (ds : List Diagnostic) (v : Word) : (s.pastWith n ds).writeOperand o v = s.wrote n ds o v := by
  have hcan : (s.pastWith n ds).canWrite o = true := by cases o <;> exact h
  rw [State.writeOperand_writable hcan]
  cases o <;> rfl

theorem State.writeOperand_pastWith_stops {s : State} {o : Operand} (h : s.canWrite o = false) (n : Nat)
    (ds : List Diagnostic) (v : Word) :
    (s.pastWith n ds).writeOperand o v = s.stoppedUndefined n ds (.destTag o.tag) := by
  have hcan : (s.pastWith n ds).canWrite o = false := by cases o <;> exact h
  rw [State.writeOperand_unwritable hcan, State.raise_pastWith]

/-! ### The forms of the instructions -/

/-- Decode both operands, read the destination, read the source: the shape of all binary instructions but MOV. -/
def State.withBothValues (s : State) (d src : TaggedOperand) (rest : Operand → Word → Word → State → Result) :
    Result :=
  s.withOperand d fun od s => s.withOperand src fun os s => s.withValue od fun a s => s.withValue os fun b s =>
    rest od a b s

theorem binaryOp_eq (f : Word → Word → Word) (d src : TaggedOperand) (s : State) :
    binaryOp f d src s = s.withBothValues d src fun od a b s => .next (s.writeOperand od (f a b)) := rfl

theorem State.withBothValues_readable {s : State} {d src : TaggedOperand} {od os : Operand}
    (hd : unpack s.cfg d = .ok od) (hs : unpack s.cfg src = .ok os) (hrd : s.canRead od = true)
    (hrs : s.canRead os = true) (rest : Operand → Word → Word → State → Result) :
    s.withBothValues d src rest =
      rest od (s.operandValue od) (s.operandValue os) (s.pastWith 10 (s.readReports od ++ s.readReports os)) := by
  rw [State.withBothValues, State.withOperands_ok hd hs, State.pastFields_eq_pastWith, State.withValue_pastWith hrd,
    State.withValue_pastWith hrs, List.nil_append]

theorem State.withBothValues_left_stops {s : State} {d src : TaggedOperand} {od os : Operand}
    (hd : unpack s.cfg d = .ok od) (hs : unpack s.cfg src = .ok os) (hrd : s.canRead od = false)
    (rest : Operand → Word → Word → State → Result) :
    s.withBothValues d src rest = .next (s.stoppedUndefined 10 [] (.tag 0x00)) := by
  rw [State.withBothValues, State.withOperands_ok hd hs, State.pastFields_eq_pastWith,
    State.withValue_pastWith_stops hrd]

theorem State.withBothValues_right_stops {s : State} {d src : TaggedOperand} {od os : Operand}
    (hd : unpack s.cfg d = .ok od) (hs : unpack s.cfg src = .ok os) (hrd : s.canRead od = true)
    (hrs : s.canRead os = false) (rest : Operand → Word → Word → State → Result) :
    s.withBothValues d src rest = .next (s.stoppedUndefined 10 (s.readReports od) (.tag 0x00)) := by
  rw [State.withBothValues, State.withOperands_ok hd hs, State.pastFields_eq_pastWith, State.withValue_pastWith hrd,
    State.withValue_pastWith_stops hrs, List.nil_append]

/-- The seven instructions of two operands decode both before anything else (R216). -/
theorem exec_binary_form {mk : TaggedOperand → TaggedOperand → Instr}
    (hmk : mk ∈ [Instr.mov, Instr.add, Instr.sub, Instr.cmp, Instr.and, Instr.or, Instr.xor]) :
    ∃ rest : Operand → Operand → State → Result, ∀ d src s,
      exec (mk d src) s = s.withOperand d fun od s => s.withOperand src fun os s => rest od os s := by
  simp only [List.mem_cons, List.not_mem_nil, or_false] at hmk
  rcases hmk with rfl | rfl | rfl | rfl | rfl | rfl | rfl <;> exact ⟨_, fun _ _ _ => rfl⟩

/-- All of them but MOV read both operands next (R216). -/
theorem exec_readBoth_form {mk : TaggedOperand → TaggedOperand → Instr}
    (hmk : mk ∈ [Instr.add, Instr.sub, Instr.and, Instr.or, Instr.xor, Instr.cmp]) :
    ∃ rest, ∀ d src s, exec (mk d src) s = s.withBothValues d src rest := by
  simp only [List.mem_cons, List.not_mem_nil, or_false] at hmk
  rcases hmk with rfl | rfl | rfl | rfl | rfl | rfl <;> exact ⟨_, fun _ _ _ => rfl⟩

/-- The five instructions that compute and write back, each with what it computes (R241 to R245). -/
def writeBackForms : List ((TaggedOperand → TaggedOperand → Instr) × (Word → Word → Word)) :=
  [(Instr.add, fun a b => a + b), (Instr.sub, fun a b => a - b), (Instr.and, fun a b => a &&& b),
    (Instr.or, fun a b => a ||| b), (Instr.xor, fun a b => a ^^^ b)]

/-- They are one operation. -/
theorem exec_writeBackForms {p : (TaggedOperand → TaggedOperand → Instr) × (Word → Word → Word)}
    (hp : p ∈ writeBackForms) (d src : TaggedOperand) (s : State) : exec (p.1 d src) s = binaryOp p.2 d src s := by
  simp only [writeBackForms, List.mem_cons, List.not_mem_nil, or_false] at hp
  rcases hp with rfl | rfl | rfl | rfl | rfl <;> rfl

theorem exec_writeBack {mk : TaggedOperand → TaggedOperand → Instr} (hmk : mk ∈ writeBackForms.map Prod.fst) :
    ∃ f, ∀ d src s, exec (mk d src) s = binaryOp f d src s := by
  obtain ⟨p, hp, rfl⟩ := List.mem_map.1 hmk
  exact ⟨p.2, exec_writeBackForms hp⟩

/-- The five instructions of one register byte decode it before anything else (R215). -/
theorem exec_register_error {mk : Byte → Instr}
    (hmk : mk ∈ [Instr.inc, Instr.dec, Instr.push, Instr.pop, Instr.input]) {s : State} {r : Byte}
    {info : UndefinedInfo} (hr : decodeReg s.cfg r = .error info) :
    exec (mk r) s = .next (s.stoppedUndefined 1 [] info) := by
  simp only [List.mem_cons, List.not_mem_nil, or_false] at hmk
  rcases hmk with rfl | rfl | rfl | rfl | rfl <;>
    simp only [exec, execInc, execDec, registerOp, execPush, execPop, execInput, State.withReg_error hr,
      State.raise_consume]

/-! ### Next states -/

theorem binaryOp_writable {s : State} {d src : TaggedOperand} {od os : Operand} (hd : unpack s.cfg d = .ok od)
    (hs : unpack s.cfg src = .ok os) (hrd : s.canRead od = true) (hrs : s.canRead os = true)
    (hwd : s.canWrite od = true) (f : Word → Word → Word) :
    binaryOp f d src s =
      .next (s.wrote 10 (s.readReports od ++ s.readReports os) od (f (s.operandValue od) (s.operandValue os))) := by
  rw [binaryOp_eq, State.withBothValues_readable hd hs hrd hrs, State.writeOperand_pastWith hwd]

theorem binaryOp_unwritable {s : State} {d src : TaggedOperand} {od os : Operand} (hd : unpack s.cfg d = .ok od)
    (hs : unpack s.cfg src = .ok os) (hrd : s.canRead od = true) (hrs : s.canRead os = true)
    (hwd : s.canWrite od = false) (f : Word → Word → Word) :
    binaryOp f d src s =
      .next (s.stoppedUndefined 10 (s.readReports od ++ s.readReports os) (.destTag od.tag)) := by
  rw [binaryOp_eq, State.withBothValues_readable hd hs hrd hrs, State.writeOperand_pastWith_stops hwd]

theorem execMov_readable {s : State} {d src : TaggedOperand} {od os : Operand} (hd : unpack s.cfg d = .ok od)
    (hs : unpack s.cfg src = .ok os) (hrs : s.canRead os = true) :
    execMov d src s =
      .next ((s.pastWith 10 (s.readReports os)).writeOperand od (s.operandValue os)) := by
  rw [execMov, State.withOperands_ok hd hs, State.pastFields_eq_pastWith, State.withValue_pastWith hrs,
    List.nil_append]

theorem execMov_writable {s : State} {d src : TaggedOperand} {od os : Operand} (hd : unpack s.cfg d = .ok od)
    (hs : unpack s.cfg src = .ok os) (hrs : s.canRead os = true) (hwd : s.canWrite od = true) :
    execMov d src s = .next (s.wrote 10 (s.readReports os) od (s.operandValue os)) := by
  rw [execMov_readable hd hs hrs, State.writeOperand_pastWith hwd]

theorem execMov_unreadable {s : State} {d src : TaggedOperand} {od os : Operand} (hd : unpack s.cfg d = .ok od)
    (hs : unpack s.cfg src = .ok os) (hrs : s.canRead os = false) :
    execMov d src s = .next (s.stoppedUndefined 10 [] (.tag 0x00)) := by
  rw [execMov, State.withOperands_ok hd hs, State.pastFields_eq_pastWith, State.withValue_pastWith_stops hrs]

theorem execMov_unwritable {s : State} {d src : TaggedOperand} {od os : Operand} (hd : unpack s.cfg d = .ok od)
    (hs : unpack s.cfg src = .ok os) (hrs : s.canRead os = true) (hwd : s.canWrite od = false) :
    execMov d src s = .next (s.stoppedUndefined 10 (s.readReports os) (.destTag od.tag)) := by
  rw [execMov_readable hd hs hrs, State.writeOperand_pastWith_stops hwd]

theorem execPrint_error {s : State} {o : TaggedOperand} {info : UndefinedInfo} (ho : unpack s.cfg o = .error info) :
    execPrint o s = .next (s.stoppedUndefined 5 [] info) := by
  rw [execPrint, State.withOperand_error ho, State.raise_consume]

theorem execPrint_unreadable {s : State} {o : TaggedOperand} {op : Operand} (ho : unpack s.cfg o = .ok op)
    (hr : s.canRead op = false) : execPrint o s = .next (s.stoppedUndefined 5 [] (.tag 0x00)) := by
  rw [execPrint, State.withOperand_ok ho, State.consume_eq_pastWith]
  cases op with
  | unknown => exact State.withValue_pastWith_stops hr 5 [] _
  | reg | imm | mem => cases hr

theorem registerOp_eq {s : State} {r : Byte} {c : RegCode} (hr : decodeReg s.cfg r = .ok c) (f : Word → Word) :
    registerOp f r s =
      .next { s with ip := s.ip + 1, x := s.x.set c (f (s.x.get c)), diags := s.diags ++ s.fetchReports 1 } := by
  rw [registerOp, State.withReg_ok hr, State.consume_eq]
  rfl

/-! ### The obligations -/

/-- Settles O15: both operands, and a register byte, are decoded before anything else happens. -/
theorem badEncodingStopsPastTheOperand : Obligations.BadEncodingStopsPastTheOperand := by
  intro s d src r info
  refine ⟨fun mk hmk => ?_, execPrint_error, fun mk hmk => exec_register_error hmk⟩
  obtain ⟨rest, hform⟩ := exec_binary_form hmk
  rw [hform]
  exact ⟨fun hd => State.withOperands_error_left hd rest, fun od hd hs => State.withOperands_error_right hd hs rest⟩

/-- Settles O16: the reads come in order after both decodes, and the write comes last. -/
theorem faultPoliciesStopTheInstruction : Obligations.FaultPoliciesStopTheInstruction := by
  intro s d src od os hd hs
  refine ⟨fun mk hmk => ?_, execMov_unreadable hd hs, fun mk hmk hrd hrs hwd => ?_, execMov_unwritable hd hs,
    execPrint_unreadable hs⟩
  · obtain ⟨rest, hform⟩ := exec_readBoth_form hmk
    rw [hform]
    exact ⟨fun hrd => State.withBothValues_left_stops hd hs hrd rest,
      fun hrd hrs => State.withBothValues_right_stops hd hs hrd hrs rest⟩
  · obtain ⟨f, hform⟩ := exec_writeBack hmk
    rw [hform, binaryOp_unwritable hd hs hrd hrs hwd]

/-- Settles O17: the source is read after both decodes, and the destination is written last. -/
theorem movCopiesTheSource : Obligations.MovCopiesTheSource :=
  fun _ _ _ _ _ hd hs hrs hwd => execMov_writable hd hs hrs hwd

/-- Settles O18: the five are one operation, which reads both operands and then writes the destination. -/
theorem arithmeticAndLogicStoreTheResult : Obligations.ArithmeticAndLogicStoreTheResult := by
  intro s d src od os hd hs hrd hrs hwd p hp
  rw [exec_writeBackForms hp, binaryOp_writable hd hs hrd hrs hwd, State.wrote, ← List.append_assoc]
  rfl

/-- Settles O21: both are the register operation, with one added or taken away. -/
theorem incAndDecChangeOneRegister : Obligations.IncAndDecChangeOneRegister := by
  intro s r c hr p hp
  simp only [List.mem_cons, List.not_mem_nil, or_false] at hp
  rcases hp with rfl | rfl
  · exact registerOp_eq hr fun v => v + 1
  · exact registerOp_eq hr fun v => v - 1

/-- Z after a comparison: the values are equal (R248). -/
theorem compareFlags_zero (a b : Word) : (compareFlags a b).getLsbD 0 = true ↔ a = b := by
  rw [compareFlags, getLsbD_flagsWord]
  simp [exactDiff, sub_eq_zero, BitVec.toNat_inj]

/-- N after a comparison: the first value is below the second, unsigned (R248, D6). -/
theorem compareFlags_negative (a b : Word) : (compareFlags a b).getLsbD 1 = true ↔ a.toNat < b.toNat := by
  rw [compareFlags, getLsbD_flagsWord]
  simp [exactDiff]

/-- The reserved bits after a comparison (R39). -/
theorem compareFlags_reserved (a b : Word) {k : Nat} (hk : 2 ≤ k) : (compareFlags a b).getLsbD k = false := by
  rw [compareFlags, getLsbD_flagsWord, if_neg (by omega), if_neg (by omega)]

/-- Settles O22: CMP's next state said as a whole, and the bits of the flags it writes. -/
theorem cmpSetsTheFlags : Obligations.CmpSetsTheFlags :=
  fun _ _ _ _ _ hd hs hrd hrs => ⟨_, exec_cmp_eq hd hs hrd hrs, compareFlags_zero _ _, compareFlags_negative _ _,
    fun _ hk => compareFlags_reserved _ _ hk, rfl⟩

/-! ### Destinations in memory, and one operand twice -/

/-- MOV and the five that compute, for a readable and writable destination: the value they write is the operation's,
which for MOV drops the destination's own. -/
theorem exec_store_form {p : (TaggedOperand → TaggedOperand → Instr) × (Word → Word → Word)}
    (hp : p ∈ [(Instr.mov, fun _ b : Word => b), (Instr.add, fun a b => a + b), (Instr.sub, fun a b => a - b),
      (Instr.and, fun a b => a &&& b), (Instr.or, fun a b => a ||| b), (Instr.xor, fun a b => a ^^^ b)])
    {s : State} {d src : TaggedOperand} {od os : Operand} (hd : unpack s.cfg d = .ok od)
    (hs : unpack s.cfg src = .ok os) (hrd : s.canRead od = true) (hrs : s.canRead os = true)
    (hwd : s.canWrite od = true) :
    ∃ ds, exec (p.1 d src) s = .next (s.wrote 10 ds od (p.2 (s.operandValue od) (s.operandValue os))) := by
  rcases List.mem_cons.1 hp with rfl | hp
  · exact ⟨_, execMov_writable hd hs hrs hwd⟩
  · exact ⟨_, (exec_writeBackForms hp d src s).trans (binaryOp_writable hd hs hrd hrs hwd p.2)⟩

/-- Settles O19: the bytes of memory after a value is written to a Memory operand. -/
theorem memoryDestinationsChangeTheirFourBytes : Obligations.MemoryDestinationsChangeTheirFourBytes := by
  intro s d src a os hd hs hrs p hp
  obtain ⟨ds, hexec⟩ := exec_store_form hp hd hs rfl hrs rfl
  exact ⟨_, hexec, rfl, rfl, rfl, fun b => s.get_writtenMem (.mem a) _ b⟩

/-- A word written to memory inside the buffer is the value there. -/
theorem State.valueAt_wrote {s : State} {a : Word} (hin : a.toNat + 4 ≤ s.cfg.memSize) (n : Nat)
    (ds : List Diagnostic) (v : Word) : (s.wrote n ds (.mem a) v).valueAt .word a.toNat = v := by
  have hval : (s.wrote n ds (.mem a) v).operandValue (.mem a) = v :=
    State.operandValue_of_written hin rfl fun _ _ _ => rfl
  exact (if_pos hin).symm.trans hval

/-- Settles O20: the value written is `a - a`, `a ^ a` or `a + a` of the operand's value before. -/
theorem sameOperandTwiceIsWellDefined : Obligations.SameOperandTwiceIsWellDefined := by
  intro s o
  refine ⟨fun c ho => ⟨?_, ?_, ?_⟩, fun a ho hin => ⟨?_, ?_, ?_⟩⟩
  · refine ⟨_, binaryOp_writable ho ho rfl rfl rfl fun a b => a - b, ?_⟩
    simp [State.wrote, State.writtenRegs]
  · refine ⟨_, binaryOp_writable ho ho rfl rfl rfl fun a b => a ^^^ b, ?_⟩
    simp [State.wrote, State.writtenRegs]
  · exact ⟨_, execMov_writable ho ho rfl rfl, s.x.set_get c⟩
  · refine ⟨_, binaryOp_writable ho ho rfl rfl rfl fun a b => a - b, ?_⟩
    exact (State.valueAt_wrote hin _ _ _).trans (BitVec.sub_self _)
  · refine ⟨_, binaryOp_writable ho ho rfl rfl rfl fun a b => a ^^^ b, ?_⟩
    exact (State.valueAt_wrote hin _ _ _).trans BitVec.xor_self
  · refine ⟨_, binaryOp_writable ho ho rfl rfl rfl fun a b => a + b, ?_⟩
    rw [State.valueAt_wrote hin, State.operandValue, if_pos hin, BitVec.toNat_add, Nat.two_mul]

end Sys2Proof.Machine
end

section
/-! PROOFS. Control transfer and the stack (42_control.md, 43_stack.md), interrupts, HLT and I/O (44_system_io.md), and
the bounded accesses (20_memory.md section 3). -/

namespace Sys2Proof.Machine

/-! ### Control transfer and the stack -/

theorem State.setIp_consume (s : State) (n : Nat) :
    (s.consume n).setIp (s.ip + BitVec.ofNat 32 n) = s.consume n := by
  rw [State.consume_eq]
  rfl

/-- JE and JNE test Z in the state past the address field, whose flags are those before it. -/
theorem exec_je_eq (target : Word) (s : State) :
    exec (.je target) s = .next ((s.consume 4).setIp (if s.flags.getLsbD 0 = true then target else s.ip + 4)) := by
  rw [show exec (.je target) s = execJe target s from rfl, execJe, State.consume_z]
  split
  · rfl
  · exact congrArg Host.Outcome.next (s.setIp_consume 4).symm

theorem exec_jne_eq (target : Word) (s : State) :
    exec (.jne target) s = .next ((s.consume 4).setIp (if s.flags.getLsbD 0 = true then s.ip + 4 else target)) := by
  rw [show exec (.jne target) s = execJne target s from rfl, execJne, State.consume_z]
  split
  · exact congrArg Host.Outcome.next (s.setIp_consume 4).symm
  · rfl

/-- Settles O26: the two jumps in the state past the address field. -/
theorem conditionalJumpsReadZ : Obligations.ConditionalJumpsReadZ := by
  intro s target
  rw [exec_je_eq, exec_jne_eq, State.consume_eq]
  exact ⟨rfl, rfl⟩

/-- Settles O27: the push of the address past the field, in the state past the field. -/
theorem callPushesTheReturnAddress : Obligations.CallPushesTheReturnAddress := by
  intro s target
  rw [show exec (.call target) s = execCall target s from rfl, execCall]
  simp only [State.push_eq, State.consume_eq]
  rfl

/-- Settles O28: what a pop does, then the popped word in `ip`. -/
theorem retPopsIntoIp : Obligations.RetPopsIntoIp := by
  intro s
  rw [show exec .ret s = execRet s from rfl, execRet, State.pop_eq]
  rfl

/-- Settles O30: the register is read in the state past the field, whose registers are those before it. -/
theorem pushStoresBelowSp : Obligations.PushStoresBelowSp := by
  intro s r c hr
  rw [show exec (.push r) s = execPush r s from rfl, execPush, State.withReg_ok hr, State.push_eq, State.consume_eq]
  rfl

/-- Settles O31: what a pop does in the state past the register byte, then the write of the register. -/
theorem popLoadsFromSp : Obligations.PopLoadsFromSp := by
  intro s r c hr
  rw [show exec (.pop r) s = execPop r s from rfl, execPop, State.withReg_ok hr, State.pop_eq, State.consume_eq]
  rfl

/-- Settles O29: RET pops the word that CALL pushed, and moves SP up by what CALL moved it down. -/
theorem retUndoesCall : Obligations.RetUndoesCall := by
  intro s t u target hin hcall hcfg hsp hbytes
  rw [callPushesTheReturnAddress s target] at hcall
  cases hcall
  refine ⟨_, retPopsIntoIp u, ?_, ?_⟩
  · rw [hcfg, hsp, PerReg.get_set_self]
    exact State.operandValue_of_written hin hcfg hbytes
  · rw [hcfg, PerReg.get_set_self, hsp, PerReg.get_set_self, BitVec.sub_add_cancel]

/-- Settles O32: POP loads the word that PUSH stored, and SP comes back to where it was. -/
theorem popUndoesPush : Obligations.PopUndoesPush := by
  intro s t r c hr hc hin hpush
  rw [pushStoresBelowSp s r c hr] at hpush
  have hcfg : t.cfg = s.cfg := by cases hpush; rfl
  have hx : t.x = s.x.set s.cfg.spCode (s.x.get s.cfg.spCode - 4) := by cases hpush; rfl
  have hmem : t.mem = s.writtenMem (.mem (s.x.get s.cfg.spCode - 4)) (s.x.get c) := by cases hpush; rfl
  have hword : t.operandValue (.mem (s.x.get s.cfg.spCode - 4)) = s.x.get c :=
    State.operandValue_of_written hin hcfg fun _ _ _ => by rw [State.byteAt, hmem]
  refine ⟨_, popLoadsFromSp t r c (hcfg ▸ hr), ?_⟩
  simp only [hcfg, hx, PerReg.get_set_self, hword, PerReg.set_set, BitVec.sub_add_cancel, PerReg.set_get]

/-! ### Interrupts, HLT, INPUT, PRINT -/

/-- Settles O33: the vector is looked up in the state past its byte, whose table is the one before. -/
theorem intInvokesTheInstalledHandler : Obligations.IntInvokesTheInstalledHandler := by
  intro s v
  have hint : exec (.int v) s = execInt v s := rfl
  have hivt : (s.consume 1).ivt = s.ivt := by rw [State.consume_eq]
  refine ⟨fun hv => ?_, fun h hv => ?_⟩
  · simp only [hint, execInt, hivt, hv]
    rw [State.consume_eq]
    rfl
  · have hcall : exec (.int v) s = (s.pastFields 1).hostCall h := by
      simp only [hint, execInt, hivt, hv]
      rw [State.consume_pastFields]
    refine ⟨hcall, fun hret => ?_⟩
    rw [hcall, State.hostCall, hret]
    rfl

/-- Settles O34: the endings by definition, the acts by the law of each operation a handler reaches. -/
theorem hostCallHasThreeOutcomes : Obligations.HostCallHasThreeOutcomes := by
  intro s h
  refine ⟨fun he => ?_, fun he => ?_, fun he => ?_, fun _ => rfl, fun acts act _ => ?_, fun _ _ => rfl,
    s.memWrite_word, fun a => congrArg Prod.snd (s.memRead_word a), fun _ => rfl⟩
  · rw [State.hostCall, he]
    rfl
  · rw [State.hostCall, he]
    rfl
  · rw [State.hostCall, he]
    rfl
  · exact List.foldl_concat ..

/-- Settles O36: the running test comes before the test of `ip`. -/
theorem hltStopsTheNextTurn : Obligations.HltStopsTheNextTurn := by
  refine fun s => ⟨rfl, fun t ht hstop hphase hcap => ?_⟩
  have hrun : t.running = false := by
    cases ht
    rfl
  simp [step, hstop, hphase, hcap, hrun, State.stop]

/-- Settles O38: after the register byte, the first line decides, and with no line the policy does. -/
theorem inputStoresTheParsedLine : Obligations.InputStoresTheParsedLine := by
  intro s r c hr
  have hinput : exec (.input r) s = execInput r s := rfl
  rw [hinput, execInput, State.withReg_ok hr, State.consume_eq]
  refine ⟨fun line rest hline => ⟨fun n hn => ?_, fun hnone => ?_⟩, fun hnil => ⟨fun he => ?_, fun he => ?_⟩⟩
  · simp only [hline, State.inputValue, hn]
    rfl
  · simp only [hline, State.inputValue, hnone]
    rfl
  · simp only [hnil, State.inputAtEnd, he]
  · simp only [hnil, State.inputAtEnd, he]
    rfl

theorem State.stringFrom_congr {s t : State} (h : t.mem = s.mem) (n a : Nat) :
    t.stringFrom n a = s.stringFrom n a := by
  induction n generalizing a with
  | zero => rfl
  | succ n ih => rw [State.stringFrom, State.stringFrom, ih, State.byteAt, State.byteAt, h]

theorem execPrint_string {s : State} {o : TaggedOperand} {a : Word} (ho : unpack s.cfg o = .ok (.imm a)) :
    execPrint o s = .next ((s.pastWith 5 []).out (s.stringAt a)) := by
  rw [execPrint, State.withOperand_ok ho, State.consume_eq_pastWith]
  have hstring : (s.pastWith 5 []).stringAt a = s.stringAt a :=
    State.stringFrom_congr (s := s) (t := s.pastWith 5 []) rfl _ _
  exact congrArg (fun bytes => Host.Outcome.next ((s.pastWith 5 []).out bytes)) hstring

theorem execPrint_number {s : State} {o : TaggedOperand} {op : Operand} (ho : unpack s.cfg o = .ok op)
    (hr : s.canRead op = true) (hop : ∀ a, op ≠ .imm a) :
    execPrint o s = .next ((s.pastWith 5 (s.readReports op)).out (numberText (s.operandValue op))) := by
  rw [execPrint, State.withOperand_ok ho, State.consume_eq_pastWith]
  cases op with
  | imm a => exact absurd rfl (hop a)
  | reg | mem | unknown => exact State.withValue_pastWith hr 5 [] _

/-- Settles O39: an immediate is a string, any other readable operand a number. -/
theorem printWritesToTheOutput : Obligations.PrintWritesToTheOutput := by
  intro s o op ho hr
  by_cases himm : ∃ a, op = .imm a
  · obtain ⟨a, rfl⟩ := himm
    refine ⟨_, execPrint_string ho, fun b hb => ?_, fun hne => absurd rfl (hne a), rfl⟩
    cases hb
    rfl
  · have hne : ∀ a, op ≠ .imm a := not_exists.1 himm
    exact ⟨_, execPrint_number ho hr hne, fun a ha => absurd ha (hne a), fun _ => (List.append_assoc ..).symm, rfl⟩

/-! ### Bounded accesses (R72 to R74, R203) -/

/-- A byte of a word past its fourth is 0. -/
theorem byteOf_of_le {k : Nat} (hk : 4 ≤ k) (v : Word) : byteOf k v = 0 := by
  apply BitVec.eq_of_getLsbD_eq
  intro i _
  rw [getLsbD_byteOf, BitVec.getLsbD_of_ge v _ (by omega)]
  simp

/-- The bytes of the value of an access are the bytes of the buffer, and 0 past its width. -/
theorem State.byteOf_valueAt (s : State) (w : Width) (a k : Nat) :
    byteOf k (s.valueAt w a) = if k < Width.bytes w then s.byteAt (a + k) else 0 := by
  cases w with
  | byte =>
    apply BitVec.eq_of_getLsbD_eq
    intro i hi
    rw [getLsbD_byteOf, State.valueAt, BitVec.getLsbD_setWidth]
    rcases k with _ | k
    · simp [Width.bytes, hi, show i < 32 by omega]
    · rw [BitVec.getLsbD_of_ge _ (8 * (k + 1) + i) (by omega)]
      simp [Width.bytes]
  | word =>
    rcases k with _ | _ | _ | _ | k
    · exact byteOf_zero_le32 ..
    · exact byteOf_one_le32 ..
    · exact byteOf_two_le32 ..
    · exact byteOf_three_le32 ..
    · rw [if_neg (by simp [Width.bytes]), byteOf_of_le (by omega)]

/-- The bytes a write puts, by their place. -/
theorem getD_valueBytes (w : Width) (v : Word) {k : Nat} (hk : k < Width.bytes w) :
    (valueBytes w v).getD k Memory.unlisted = byteOf k v := by
  cases w with
  | byte =>
    obtain rfl : k = 0 := Nat.lt_one_iff.1 hk
    rfl
  | word =>
    have hk' : k = 0 ∨ k = 1 ∨ k = 2 ∨ k = 3 := by
      simp only [Width.bytes] at hk
      omega
    rcases hk' with rfl | rfl | rfl | rfl <;> rfl

theorem State.memRead_inside {s : State} {w : Width} {a : Word} (h : a.toNat + Width.bytes w ≤ s.cfg.memSize) :
    s.memRead w a = (s.valueAt w a.toNat, s) := by
  rw [State.memRead, State.inBuffer, if_pos (decide_eq_true h)]

theorem State.memRead_outside {s : State} {w : Width} {a : Word} (h : s.cfg.memSize < a.toNat + Width.bytes w) :
    s.memRead w a = (0, s.report (.memoryFault .read a (Width.bytes w))) := by
  rw [State.memRead, State.inBuffer, if_neg (by simpa using h)]

theorem State.memWrite_inside {s : State} {w : Width} {a : Word} (h : a.toNat + Width.bytes w ≤ s.cfg.memSize)
    (v : Word) : s.memWrite w a v = { s with mem := Memory.putBytes s.mem a.toNat (valueBytes w v) } := by
  rw [State.memWrite, State.inBuffer, if_pos (decide_eq_true h)]

theorem State.memWrite_outside {s : State} {w : Width} {a : Word} (h : s.cfg.memSize < a.toNat + Width.bytes w)
    (v : Word) : s.memWrite w a v = s.report (.memoryFault .write a (Width.bytes w)) := by
  rw [State.memWrite, State.inBuffer, if_neg (by simpa using h)]

/-- Settles O43: an access inside the buffer byte by byte, and one outside it by its record. -/
theorem boundedAccessesNeverWrap : Obligations.BoundedAccessesNeverWrap := by
  intro s w a v
  refine ⟨fun hin => ?_, fun hout => ⟨State.memRead_outside hout, State.memWrite_outside hout v⟩,
    fun h => if_neg (Nat.not_lt.2 h), fun h => if_pos h⟩
  rw [State.memRead_inside hin, State.memWrite_inside hin]
  refine ⟨rfl, s.byteOf_valueAt w a.toNat, fun b => ?_, rfl⟩
  rw [State.byteAt, Memory.get_putBytes, length_valueBytes]
  split
  · exact getD_valueBytes w v (by omega)
  · rfl

end Sys2Proof.Machine
end

section
/-! PROOFS. The frames: what each instruction leaves as it was (10_state.md, 20_memory.md section 4, 40_fetch_decode.md
section 4, 60_exceptions.md section 3). Said once for all instructions but INT in `exec_leaves`, and for INT, whose
handler is the host's, in `exec_int_cases`. -/

namespace Sys2Proof.Machine

/-! ### INT: what a handler reaches (R420) -/

/-- `t` is `s` but for what a handler reaches: registers, memory, output and records. -/
def HandlerReaches (s t : State) : Prop :=
  ∃ x mem output diags, t = { s with x := x, mem := mem, output := output, diags := diags }

theorem HandlerReaches.refl (s : State) : HandlerReaches s s := ⟨_, _, _, _, rfl⟩

theorem HandlerReaches.trans {s t u : State} (h : HandlerReaches s t) (k : HandlerReaches t u) :
    HandlerReaches s u := by
  obtain ⟨_, _, _, _, rfl⟩ := h
  obtain ⟨x, mem, output, diags, rfl⟩ := k
  exact ⟨x, mem, output, diags, rfl⟩

theorem State.handlerReaches_act (s : State) (act : HandlerAct) : HandlerReaches s (s.handlerAct act) := by
  cases act with
  | setReg c v => exact ⟨_, _, _, _, rfl⟩
  | load w a =>
    rw [State.handlerAct, State.memRead]
    split <;> exact ⟨_, _, _, _, rfl⟩
  | store w a v =>
    rw [State.handlerAct, State.memWrite]
    split <;> exact ⟨_, _, _, _, rfl⟩
  | print bytes => exact ⟨_, _, _, _, rfl⟩

theorem State.handlerReaches_acts (acts : List HandlerAct) (s : State) : HandlerReaches s (s.handlerActs acts) := by
  induction acts generalizing s with
  | nil => exact .refl s
  | cons act acts ih => exact (s.handlerReaches_act act).trans (ih _)

/-- What INT can do: `ip` past its byte, what a handler reaches, the count of invocations, and HostExit. -/
theorem exec_int_cases {s t : State} {v : Byte} (h : exec (.int v) s = .next t) :
    ∃ x mem output diags calls stop, (stop = s.stopReason ∨ stop = some .hostExit) ∧
      t = { s with
        ip := s.ip + 1, x := x, mem := mem, output := output, diags := diags, hostCalls := calls,
        stopReason := stop } := by
  obtain ⟨hempty, hinstalled⟩ := intInvokesTheInstalledHandler s v
  cases hv : Ivt.get s.ivt v with
  | none =>
    rw [hempty hv] at h
    cases h
    exact ⟨_, _, _, _, _, _, .inl rfl, rfl⟩
  | some g =>
    rw [(hinstalled g hv).1, State.hostCall, State.afterHandler] at h
    obtain ⟨x, mem, output, diags, hacts⟩ := State.handlerReaches_acts ((s.pastFields 1).handlerRun g).acts
      { s.pastFields 1 with hostCalls := (s.pastFields 1).hostCalls + 1 }
    rw [hacts] at h
    cases he : ((s.pastFields 1).handlerRun g).ending with
    | ret =>
      rw [he] at h
      cases h
      exact ⟨_, _, _, _, _, _, .inl rfl, rfl⟩
    | exit =>
      rw [he] at h
      cases h
      exact ⟨_, _, _, _, _, _, .inr rfl, rfl⟩
    | blocks =>
      rw [he] at h
      cases h

/-- Settles O35: the channels by the growth every instruction has, the rest by what INT can do. -/
theorem handlersCannotTouchControlState : Obligations.HandlersCannotTouchControlState := by
  intro s t v h
  obtain ⟨hdiags, hout, -⟩ := (exec_updates _ h).grows
  obtain ⟨x, mem, output, diags, calls, stop, -, rfl⟩ := exec_int_cases h
  exact ⟨rfl, rfl, rfl, rfl, rfl, rfl, rfl, hout, hdiags⟩

/-! ### All other instructions -/

/-- `t` is a state in which an instruction begun in `s` stopped on an undefined operand. -/
def State.Stopped (s t : State) : Prop := ∃ n ds info, t = s.stoppedUndefined n ds info

/-- Of the fields other than `ip`, the registers, memory, the records and the stop reason, only CMP writes the flags,
HLT `running`, PRINT the output and INPUT the input. -/
def KeepsRest (i : Instr) (s t : State) : Prop :=
  t = { s with
    ip := t.ip
    x := t.x
    flags := if i.mnemonic = .cmp then t.flags else s.flags
    running := if i.mnemonic = .hlt then false else s.running
    mem := t.mem
    diags := t.diags
    output := if i.mnemonic = .print then t.output else s.output
    input := if i.mnemonic = .input then t.input else s.input
    stopReason := t.stopReason }

/-- What the instruction `i`, INT aside, leaves as it was. -/
structure Leaves (i : Instr) (s t : State) : Prop where
  rest : KeepsRest i s t
  /-- A register not named is as before, or it is the stack pointer, moved by one word. -/
  regs : ∀ c, c ∉ s.namedDestination i → t.x.get c = s.x.get c ∨
    (c ∈ s.implicitDestination i ∧ (t.x.get c = s.x.get c - 4 ∨ t.x.get c = s.x.get c + 4))
  /-- A byte outside the 4 bytes stored is as before. -/
  mem : ∀ b, (∀ a, s.storeTarget i = some a → ¬ (a.toNat ≤ b ∧ b < a.toNat + 4)) → t.byteAt b = s.byteAt b
  /-- The run ends on an undefined operand or not at all. -/
  stop : t.stopReason = s.stopReason ∨ s.Stopped t

/-- A stop on an undefined operand leaves everything but `ip`, the record and the stop reason. HLT never stops so. -/
theorem State.Stopped.leaves {i : Instr} {s t : State} (h : s.Stopped t) (hi : i.mnemonic ≠ .hlt) :
    Leaves i s t := by
  refine ⟨?_, fun c _ => ?_, fun b _ => ?_, .inr h⟩
  all_goals obtain ⟨n, ds, info, rfl⟩ := h
  · rw [KeepsRest, if_neg hi]
    split <;> split <;> split <;> rfl
  · exact .inl rfl
  · rfl

theorem leaves_stoppedUndefined {i : Instr} {s t : State} {n : Nat} {ds : List Diagnostic} {info : UndefinedInfo}
    (h : exec i s = .next t) (hexec : exec i s = .next (s.stoppedUndefined n ds info)) (hi : i.mnemonic ≠ .hlt) :
    Leaves i s t := by
  rw [hexec] at h
  cases h
  exact State.Stopped.leaves ⟨n, ds, info, rfl⟩ hi

/-- An instruction that writes no memory and no register but a named destination. -/
theorem Leaves.of_named {i : Instr} {s t : State} (hrest : KeepsRest i s t)
    (hx : ∀ c, c ∉ s.namedDestination i → t.x.get c = s.x.get c) (hmem : t.mem = s.mem)
    (hstop : t.stopReason = s.stopReason) : Leaves i s t :=
  ⟨hrest, fun c hc => .inl (hx c hc), fun _ _ => by rw [State.byteAt, State.byteAt, hmem], .inl hstop⟩

theorem Leaves.of_eq {i : Instr} {s t : State} (hrest : KeepsRest i s t) (hx : t.x = s.x) (hmem : t.mem = s.mem)
    (hstop : t.stopReason = s.stopReason) : Leaves i s t :=
  .of_named hrest (fun _ _ => by rw [hx]) hmem hstop

/-- An instruction that pushes: it stores at the slot below the stack pointer, and moves the stack pointer there. -/
theorem Leaves.of_push {i : Instr} {s t : State} {v : Word} (hrest : KeepsRest i s t)
    (himp : s.implicitDestination i = [s.cfg.spCode])
    (hstore : s.storeTarget i = some (s.x.get s.cfg.spCode - 4))
    (hx : t.x = s.x.set s.cfg.spCode (s.x.get s.cfg.spCode - 4))
    (hmem : t.mem = s.writtenMem (.mem (s.x.get s.cfg.spCode - 4)) v) (hstop : t.stopReason = s.stopReason) :
    Leaves i s t := by
  refine ⟨hrest, fun c _ => ?_, fun b hb => ?_, .inl hstop⟩
  · rw [hx, himp, List.mem_singleton, PerReg.get_set]
    split
    · next hc => exact .inr ⟨hc, .inl (by rw [hc])⟩
    · exact .inl rfl
  · rw [State.byteAt, hmem, State.get_writtenMem]
    exact if_neg fun hin => hb _ hstore hin.2

/-- An instruction that pops: the stack pointer moves up by one word. -/
theorem Leaves.of_pop {i : Instr} {s t : State} (hrest : KeepsRest i s t)
    (himp : s.implicitDestination i = [s.cfg.spCode])
    (hx : ∀ c, c ∉ s.namedDestination i →
      t.x.get c = (s.x.set s.cfg.spCode (s.x.get s.cfg.spCode + 4)).get c)
    (hmem : t.mem = s.mem) (hstop : t.stopReason = s.stopReason) : Leaves i s t := by
  refine ⟨hrest, fun c hc => ?_, fun b _ => by rw [State.byteAt, State.byteAt, hmem], .inl hstop⟩
  rw [hx c hc, himp, List.mem_singleton, PerReg.get_set]
  split
  · next hsp => exact .inr ⟨hsp, .inr (by rw [hsp])⟩
  · exact .inl rfl

/-! ### Each instruction -/

/-- The binary instructions stop on an operand that does not decode. -/
theorem exec_binary_decodes {mk : TaggedOperand → TaggedOperand → Instr}
    (hmk : mk ∈ [Instr.mov, Instr.add, Instr.sub, Instr.cmp, Instr.and, Instr.or, Instr.xor]) {d src : TaggedOperand}
    {s t : State} (h : exec (mk d src) s = .next t) :
    s.Stopped t ∨ ∃ od os, unpack s.cfg d = .ok od ∧ unpack s.cfg src = .ok os := by
  obtain ⟨rest, hform⟩ := exec_binary_form hmk
  rw [hform] at h
  cases hd : unpack s.cfg d with
  | error info =>
    rw [State.withOperands_error_left hd] at h
    cases h
    exact .inl ⟨_, _, _, rfl⟩
  | ok od =>
    cases hs : unpack s.cfg src with
    | error info =>
      rw [State.withOperands_error_right hd hs] at h
      cases h
      exact .inl ⟨_, _, _, rfl⟩
    | ok os => exact .inr ⟨od, os, rfl, rfl⟩

/-- All but MOV stop on an operand that is not readable. -/
theorem withBothValues_cases {s t : State} {d src : TaggedOperand} {od os : Operand} (hd : unpack s.cfg d = .ok od)
    (hs : unpack s.cfg src = .ok os) {rest : Operand → Word → Word → State → Result}
    (h : s.withBothValues d src rest = .next t) :
    s.Stopped t ∨ (s.canRead od = true ∧ s.canRead os = true) := by
  cases hrd : s.canRead od with
  | false =>
    rw [State.withBothValues_left_stops hd hs hrd] at h
    cases h
    exact .inl ⟨_, _, _, rfl⟩
  | true =>
    cases hrs : s.canRead os with
    | false =>
      rw [State.withBothValues_right_stops hd hs hrd hrs] at h
      cases h
      exact .inl ⟨_, _, _, rfl⟩
    | true => exact .inr ⟨rfl, rfl⟩

/-- A write after the accesses: a stop, or the value written. -/
theorem writeOperand_pastWith_cases {s t : State} {n : Nat} {ds : List Diagnostic} {o : Operand} {v : Word}
    (h : Host.Outcome.next ((s.pastWith n ds).writeOperand o v) = (.next t : Result)) :
    s.Stopped t ∨ t = s.wrote n ds o v := by
  cases hw : s.canWrite o with
  | false =>
    rw [State.writeOperand_pastWith_stops hw] at h
    cases h
    exact .inl ⟨_, _, _, rfl⟩
  | true =>
    rw [State.writeOperand_pastWith hw] at h
    cases h
    exact .inr rfl

/-- MOV and the five that compute: a stop, or a value written to the destination. -/
theorem exec_store_cases {mk : TaggedOperand → TaggedOperand → Instr}
    (hmk : mk ∈ [Instr.mov, Instr.add, Instr.sub, Instr.and, Instr.or, Instr.xor]) {d src : TaggedOperand}
    {s t : State} (h : exec (mk d src) s = .next t) :
    s.Stopped t ∨ ∃ od n ds v, unpack s.cfg d = .ok od ∧ t = s.wrote n ds od v := by
  have hbinary : mk ∈ [Instr.mov, Instr.add, Instr.sub, Instr.cmp, Instr.and, Instr.or, Instr.xor] := by
    simp only [List.mem_cons, List.not_mem_nil, or_false] at hmk ⊢
    tauto
  obtain hstop | ⟨od, os, hd, hs⟩ := exec_binary_decodes hbinary h
  · exact .inl hstop
  rcases List.mem_cons.1 hmk with rfl | hmk
  · cases hrs : s.canRead os with
    | false =>
      rw [show exec (.mov d src) s = execMov d src s from rfl, execMov_unreadable hd hs hrs] at h
      cases h
      exact .inl ⟨_, _, _, rfl⟩
    | true =>
      rw [show exec (.mov d src) s = execMov d src s from rfl, execMov_readable hd hs hrs] at h
      exact (writeOperand_pastWith_cases h).imp_right fun ht => ⟨od, _, _, _, hd, ht⟩
  · obtain ⟨f, hform⟩ := exec_writeBack hmk
    rw [hform, binaryOp_eq] at h
    obtain hstop | ⟨hrd, hrs⟩ := withBothValues_cases hd hs h
    · exact .inl hstop
    · rw [State.withBothValues_readable hd hs hrd hrs] at h
      exact (writeOperand_pastWith_cases h).imp_right fun ht => ⟨od, _, _, _, hd, ht⟩

theorem leaves_store {mk : TaggedOperand → TaggedOperand → Instr}
    (hmk : mk ∈ [Instr.mov, Instr.add, Instr.sub, Instr.and, Instr.or, Instr.xor]) {d src : TaggedOperand}
    {s t : State} (h : exec (mk d src) s = .next t) : Leaves (mk d src) s t := by
  have hcases := exec_store_cases hmk h
  simp only [List.mem_cons, List.not_mem_nil, or_false] at hmk
  have hhlt : (mk d src).mnemonic ≠ .hlt := by
    rcases hmk with rfl | rfl | rfl | rfl | rfl | rfl <;> exact nofun
  have hnamed : s.namedDestination (mk d src) = s.namedDestination (.mov d src) := by
    rcases hmk with rfl | rfl | rfl | rfl | rfl | rfl <;> rfl
  have hstore : s.storeTarget (mk d src) = s.storeTarget (.mov d src) := by
    rcases hmk with rfl | rfl | rfl | rfl | rfl | rfl <;> rfl
  obtain hstop | ⟨od, n, ds, v, hd, rfl⟩ := hcases
  · exact hstop.leaves hhlt
  refine ⟨?_, fun c hc => .inl ?_, fun b hb => ?_, .inl rfl⟩
  · rcases hmk with rfl | rfl | rfl | rfl | rfl | rfl <;> rfl
  · rw [hnamed] at hc
    cases od with
    | reg r =>
      simp only [State.namedDestination, hd, List.mem_singleton] at hc
      exact PerReg.get_set_of_ne _ _ hc
    | imm | mem | unknown => rfl
  · rw [hstore] at hb
    refine (s.get_writtenMem od v b).trans ?_
    cases od with
    | mem a => exact if_neg fun hin => hb a (by simp only [State.storeTarget, hd]) hin.2
    | reg | imm | unknown => rfl

theorem leaves_cmp {d src : TaggedOperand} {s t : State} (h : exec (.cmp d src) s = .next t) :
    Leaves (.cmp d src) s t := by
  obtain hstop | ⟨od, os, hd, hs⟩ := exec_binary_decodes (mk := .cmp) (by simp) h
  · exact hstop.leaves nofun
  obtain hstop | ⟨hrd, hrs⟩ := withBothValues_cases hd hs (show s.withBothValues d src _ = .next t from h)
  · exact hstop.leaves nofun
  rw [exec_cmp_eq hd hs hrd hrs] at h
  cases h
  exact .of_eq rfl rfl rfl rfl

/-- The instructions of one register byte stop on a byte that names no register. -/
theorem exec_register_decodes {mk : Byte → Instr}
    (hmk : mk ∈ [Instr.inc, Instr.dec, Instr.push, Instr.pop, Instr.input]) {r : Byte} {s t : State}
    (h : exec (mk r) s = .next t) : s.Stopped t ∨ ∃ c, decodeReg s.cfg r = .ok c := by
  cases hr : decodeReg s.cfg r with
  | error info =>
    rw [exec_register_error hmk hr] at h
    cases h
    exact .inl ⟨_, _, _, rfl⟩
  | ok c => exact .inr ⟨c, rfl⟩

theorem leaves_inc_dec {mk : Byte → Instr} (hmk : mk ∈ [Instr.inc, Instr.dec]) {r : Byte} {s t : State}
    (h : exec (mk r) s = .next t) : Leaves (mk r) s t := by
  simp only [List.mem_cons, List.not_mem_nil, or_false] at hmk
  obtain hstop | ⟨c, hr⟩ := exec_register_decodes (by simp only [List.mem_cons]; tauto) h
  · exact hstop.leaves (by rcases hmk with rfl | rfl <;> exact nofun)
  have hnamed : s.namedDestination (mk r) = [c] := by
    rcases hmk with rfl | rfl <;> simp only [State.namedDestination, hr]
  obtain ⟨v, hexec⟩ : ∃ v, exec (mk r) s =
      .next { s with ip := s.ip + 1, x := s.x.set c v, diags := s.diags ++ s.fetchReports 1 } := by
    rcases hmk with rfl | rfl
    · exact ⟨_, registerOp_eq hr fun v => v + 1⟩
    · exact ⟨_, registerOp_eq hr fun v => v - 1⟩
  rw [hexec] at h
  cases h
  refine .of_named (by rcases hmk with rfl | rfl <;> rfl) (fun b hb => ?_) rfl rfl
  rw [hnamed, List.mem_singleton] at hb
  exact PerReg.get_set_of_ne _ _ hb

theorem leaves_push {r : Byte} {s t : State} (h : exec (.push r) s = .next t) : Leaves (.push r) s t := by
  obtain hstop | ⟨c, hr⟩ := exec_register_decodes (by simp) h
  · exact hstop.leaves nofun
  rw [pushStoresBelowSp s r c hr] at h
  cases h
  exact .of_push rfl rfl rfl rfl rfl rfl

theorem leaves_pop {r : Byte} {s t : State} (h : exec (.pop r) s = .next t) : Leaves (.pop r) s t := by
  obtain hstop | ⟨c, hr⟩ := exec_register_decodes (by simp) h
  · exact hstop.leaves nofun
  rw [popLoadsFromSp s r c hr] at h
  cases h
  refine .of_pop rfl rfl (fun b hb => ?_) rfl rfl
  simp only [State.namedDestination, hr, List.mem_singleton] at hb
  exact PerReg.get_set_of_ne _ _ hb

/-- A register that INPUT does not name, after its value is stored. -/
theorem leaves_input {r : Byte} {s t : State} (h : exec (.input r) s = .next t) : Leaves (.input r) s t := by
  obtain hstop | ⟨c, hr⟩ := exec_register_decodes (by simp) h
  · exact hstop.leaves nofun
  have hregs (v : Word) (b : RegCode) (hb : b ∉ s.namedDestination (.input r)) :
      (s.x.set c v).get b = s.x.get b := by
    simp only [State.namedDestination, hr, List.mem_singleton] at hb
    exact PerReg.get_set_of_ne _ _ hb
  obtain ⟨hline, hnil⟩ := inputStoresTheParsedLine s r c hr
  cases hin : s.input with
  | nil =>
    obtain ⟨hstuck, hzero⟩ := hnil hin
    cases he : s.cfg.inputEof with
    | stuck =>
      rw [hstuck he] at h
      cases h
    | zero =>
      rw [hzero he] at h
      cases h
      exact .of_named rfl (hregs _) rfl rfl
  | cons line rest =>
    obtain ⟨hsome, hnone⟩ := hline line rest hin
    cases hp : parseInput s.cfg line with
    | none =>
      rw [hnone hp] at h
      cases h
      exact .of_named rfl (hregs _) rfl rfl
    | some n =>
      rw [hsome n hp] at h
      cases h
      exact .of_named rfl (hregs _) rfl rfl

theorem leaves_print {o : TaggedOperand} {s t : State} (h : exec (.print o) s = .next t) :
    Leaves (.print o) s t := by
  cases ho : unpack s.cfg o with
  | error info => exact leaves_stoppedUndefined h (execPrint_error ho) nofun
  | ok op =>
    cases hr : s.canRead op with
    | false => exact leaves_stoppedUndefined h (execPrint_unreadable ho hr) nofun
    | true =>
      obtain ⟨u, hexec, -, -, hu⟩ := printWritesToTheOutput s o op ho hr
      rw [hexec] at h
      cases h
      exact .of_eq (by rw [hu]; rfl) (by rw [hu]) (by rw [hu]) (by rw [hu])

/-- What an instruction leaves, INT aside. -/
theorem exec_leaves {i : Instr} {s t : State} (hi : i.mnemonic ≠ .int) (h : exec i s = .next t) :
    Leaves i s t := by
  cases i with
  | int v => exact absurd rfl hi
  | mov | add | sub | and | or | xor => exact leaves_store (by simp) h
  | cmp d src => exact leaves_cmp h
  | jmp a =>
    rw [jmpJumpsUnconditionally s a] at h
    cases h
    exact .of_eq rfl rfl rfl rfl
  | je a =>
    rw [(conditionalJumpsReadZ s a).1] at h
    cases h
    exact .of_eq rfl rfl rfl rfl
  | jne a =>
    rw [(conditionalJumpsReadZ s a).2] at h
    cases h
    exact .of_eq rfl rfl rfl rfl
  | call a =>
    rw [callPushesTheReturnAddress s a] at h
    cases h
    exact .of_push rfl rfl rfl rfl rfl rfl
  | ret =>
    rw [retPopsIntoIp s] at h
    cases h
    exact .of_pop rfl rfl (fun _ _ => rfl) rfl rfl
  | push r => exact leaves_push h
  | pop r => exact leaves_pop h
  | inc | dec => exact leaves_inc_dec (by simp) h
  | nop =>
    cases h
    exact .of_eq rfl rfl rfl rfl
  | hlt =>
    cases h
    exact .of_eq rfl rfl rfl rfl
  | input r => exact leaves_input h
  | print o => exact leaves_print h

/-! ### The obligations -/

/-- Settles O24: INT by what a handler cannot touch, every other instruction by what it leaves. -/
theorem onlyCmpWritesTheFlags : Obligations.OnlyCmpWritesTheFlags := by
  intro i s t hcmp h
  by_cases hint : i.mnemonic = .int
  · cases i with
    | int v =>
      obtain ⟨-, hflags, -⟩ := handlersCannotTouchControlState s t v h
      exact hflags
    | _ => cases hint
  · have hflags := congrArg State.flags (exec_leaves hint h).rest
    exact hflags.trans (if_neg hcmp)

/-- Settles O48: INT never stops so, since a handler's stop reason is HostExit. -/
theorem undefinedOperandStopLeavesTheRest : Obligations.UndefinedOperandStopLeavesTheRest := by
  intro i s t info h hs ht
  have hstopped : s.Stopped t := by
    by_cases hint : i.mnemonic = .int
    · cases i with
      | int v =>
        obtain ⟨_, _, _, _, _, stop, hstop, rfl⟩ := exec_int_cases h
        rcases hstop with rfl | rfl
        · exact nomatch hs.symm.trans ht
        · cases ht
      | _ => cases hint
    · exact (exec_leaves hint h).stop.resolve_left fun hstop => nomatch (hs.symm.trans hstop.symm).trans ht
  obtain ⟨n, ds, info', rfl⟩ := hstopped
  cases ht
  exact ⟨rfl, s.fetchReports n ++ ds, by simp only [State.stoppedUndefined, List.append_assoc]⟩

/-- Settles O49, one field of what an instruction leaves. -/
theorem onlyTheStoredBytesChange : Obligations.OnlyTheStoredBytesChange :=
  fun _ _ _ hi h => (exec_leaves hi h).mem

/-- Settles O50: a register that is not named either stays or is the implicitly moved stack pointer. -/
theorem onlyDestinationRegistersChange : Obligations.OnlyDestinationRegistersChange :=
  fun _ _ _ hi h c hnamed himp => ((exec_leaves hi h).regs c hnamed).resolve_right fun hmoved => himp hmoved.1

/-- Settles O52: the stack pointer, not named, stays or is moved by one word. -/
theorem stackPointerMovesByFour : Obligations.StackPointerMovesByFour :=
  fun _ _ _ hi hnamed h => ((exec_leaves hi h).regs _ hnamed).imp_right And.right

/-- Settles O51: INT by what it can do, every other instruction by the fields it keeps. -/
theorem eachChannelHasItsInstruction : Obligations.EachChannelHasItsInstruction := by
  intro i s t h
  by_cases hint : i.mnemonic = .int
  · cases i with
    | int v =>
      obtain ⟨_, _, _, _, _, _, -, rfl⟩ := exec_int_cases h
      exact ⟨rfl, fun _ hne => absurd rfl hne, fun _ => rfl, fun hne => absurd rfl hne, rfl, rfl, rfl, rfl, rfl⟩
    | _ => cases hint
  · have hrest := (exec_leaves hint h).rest
    rw [KeepsRest] at hrest
    refine ⟨congrArg State.running hrest, fun hprint _ => ?_, fun hinput => ?_, fun _ => ?_, ?_, ?_, ?_, ?_, ?_⟩
    · exact (congrArg State.output hrest).trans (if_neg hprint)
    · exact (congrArg State.input hrest).trans (if_neg hinput)
    all_goals rw [hrest]

end Sys2Proof.Machine
end

section
/-! PROOFS. Creation, `load`, `run()` and the run loop (70_reset_and_hazards.md section 1, 60_exceptions.md sections 3
and 4, 40_fetch_decode.md section 1). -/

namespace Sys2Proof.Machine

/-! ### Creation and the host's operations -/

theorem create_valid {cfg : Config} (h : cfg.valid = true) : create cfg = .next (State.fresh cfg) := if_pos h

theorem create_invalid {cfg : Config} (h : cfg.valid = false) : create cfg = .refused .invalidConfig := by
  rw [create, h]
  rfl

theorem reference_valid : Config.reference.valid = true := by decide

theorem State.fresh_get (cfg : Config) (c : RegCode) :
    (State.fresh cfg).x.get c = if c = cfg.spCode then BitVec.ofNat 32 cfg.memSize else 0 := by
  rw [State.fresh, PerReg.get_set, PerReg.get_all]

/-- Settles O1: a fresh machine by its definition, its registers one by one. -/
theorem creationGivesTheResetTable : Obligations.CreationGivesTheResetTable :=
  ⟨create_valid reference_valid, fun _ => create_invalid, fun cfg h =>
    ⟨_, create_valid h, rfl, State.fresh_get cfg, rfl, rfl, fun _ => rfl, fun _ => rfl, rfl, rfl, rfl⟩⟩

/-- A number of the layout below the end of the buffer, as a 32-bit value. -/
theorem toNat_ofNat_of_le_dataOrigin {cfg : Config} (h : cfg.valid = true) {a : Nat} (ha : a ≤ cfg.dataOrigin) :
    (BitVec.ofNat 32 a).toNat = a := by
  obtain ⟨-, hdata, hsize⟩ := layout_of_valid h
  exact (BitVec.toNat_ofNat a 32).trans (Nat.mod_eq_of_lt (by omega))

/-- `CODE_END` between the origins, said of the numbers (R45). -/
theorem State.codeEndOk_iff (s : State) :
    s.codeEndOk = true ↔ s.cfg.codeOrigin ≤ s.codeEnd.toNat ∧ s.codeEnd.toNat ≤ s.cfg.dataOrigin := by
  simp [State.codeEndOk]

theorem State.fresh_inv {cfg : Config} (h : cfg.valid = true) : (State.fresh cfg).Inv := by
  refine ⟨h, rfl, rfl, show ((0 : Word).extractLsb' 2 30 == 0) = true by decide, ?_⟩
  have hlayout := layout_of_valid h
  have horigin : (State.fresh cfg).codeEnd.toNat = cfg.codeOrigin :=
    toNat_ofNat_of_le_dataOrigin h hlayout.1.le
  rw [State.codeEndOk_iff, horigin]
  exact ⟨le_rfl, hlayout.1.le⟩

/-- Settles O2: the reference parameters meet the constraints, and a fresh machine's `CODE_END` is the code origin. -/
theorem resetMeetsTheInvariant : Obligations.ResetMeetsTheInvariant :=
  ⟨State.fresh_inv reference_valid, fun _ => State.fresh_inv⟩

/-- The machine after the image of `code` and `data` is placed. -/
def State.withImage (s : State) (code data : List Byte) : State :=
  { s with
    mem := Memory.putBytes (Memory.putBytes s.mem s.cfg.codeOrigin code) s.cfg.dataOrigin data
    codeEnd := BitVec.ofNat 32 (s.cfg.codeOrigin + code.length)
    ip := BitVec.ofNat 32 s.cfg.codeOrigin
    phase := .loaded }

theorem load_fits {s : State} {code data : List Byte} (hphase : s.phase = .created)
    (hcode : s.cfg.codeOrigin + code.length ≤ s.cfg.dataOrigin)
    (hdata : s.cfg.dataOrigin + data.length ≤ s.cfg.memSize)
    (labels : List (Text × Word)) : load code data labels s = .next (s.withImage code data) := by
  rw [load, if_neg (not_not.2 hphase), if_pos ((imageFits_iff ..).2 ⟨hcode, hdata⟩), State.withImage]

/-- What a `load` that is not refused did. -/
theorem load_cases {s t : State} {code data : List Byte} {labels : List (Text × Word)}
    (h : load code data labels s = .next t) :
    s.cfg.codeOrigin + code.length ≤ s.cfg.dataOrigin ∧ s.cfg.dataOrigin + data.length ≤ s.cfg.memSize ∧
      t = s.withImage code data := by
  unfold load at h
  split at h
  · cases h
  · split at h
    · next hfits =>
      cases h
      obtain ⟨hcode, hdata⟩ := (imageFits_iff ..).1 hfits
      exact ⟨hcode, hdata, rfl⟩
    · cases h

/-- Each byte of memory after an image whose regions do not overlap is placed. -/
theorem State.withImage_byteAt {s : State} {code data : List Byte}
    (hcode : s.cfg.codeOrigin + code.length ≤ s.cfg.dataOrigin) (b : Nat) :
    (s.withImage code data).byteAt b =
      if s.cfg.codeOrigin ≤ b ∧ b < s.cfg.codeOrigin + code.length then code.getD (b - s.cfg.codeOrigin) 0
      else if s.cfg.dataOrigin ≤ b ∧ b < s.cfg.dataOrigin + data.length then data.getD (b - s.cfg.dataOrigin) 0
      else s.byteAt b := by
  rw [State.byteAt, State.withImage, Memory.get_putBytes, Memory.get_putBytes]
  by_cases hb : s.cfg.codeOrigin ≤ b ∧ b < s.cfg.codeOrigin + code.length
  · rw [if_neg (by omega), if_pos hb, if_pos hb]
    rfl
  · rw [if_neg hb, if_neg hb]
    rfl

/-- Settles O3: the machine with the image placed, its two addresses below `2^32` by the layout. -/
theorem loadPlacesTheImage : Obligations.LoadPlacesTheImage := by
  intro s code data labels hphase hvalid
  refine ⟨fun hfit => ?_, fun hcode hdata => ⟨_, load_fits hphase hcode hdata labels, ?_, ?_,
    State.withImage_byteAt hcode, rfl⟩⟩
  · rw [load, if_neg (not_not.2 hphase), if_neg fun h => hfit ((imageFits_iff ..).1 h)]
  · exact toNat_ofNat_of_le_dataOrigin hvalid (by omega)
  · exact toNat_ofNat_of_le_dataOrigin hvalid hcode

/-- An image that fits keeps the invariant: both regions lie in the buffer, and the code ends by the data origin. -/
theorem State.Inv.withImage {s : State} (h : s.Inv) {code data : List Byte}
    (hcode : s.cfg.codeOrigin + code.length ≤ s.cfg.dataOrigin)
    (hdata : s.cfg.dataOrigin + data.length ≤ s.cfg.memSize) : (s.withImage code data).Inv := by
  obtain ⟨hvalid, hmem, hivt, hflags, -⟩ := h
  refine ⟨hvalid, Memory.wfBelow_putBytes data (Memory.wfBelow_putBytes code hmem (by omega)) hdata, hivt, hflags, ?_⟩
  have hend : (s.withImage code data).codeEnd.toNat = s.cfg.codeOrigin + code.length :=
    toNat_ofNat_of_le_dataOrigin hvalid hcode
  rw [State.codeEndOk_iff, hend]
  exact ⟨Nat.le_add_right _ _, hcode⟩

theorem State.Inv.withHandler {s : State} (h : s.Inv) (v : Byte) (g : Handler) :
    ({ s with ivt := Ivt.put s.ivt v g } : State).Inv := by
  obtain ⟨hvalid, hmem, hivt, hrest⟩ := h
  exact ⟨hvalid, hmem, Ivt.wf_put hivt v g, hrest⟩

/-- Settles O4: `run()`, a line and the cap change nothing the invariant is about. -/
theorem hostOperationsKeepTheInvariant : Obligations.HostOperationsKeepTheInvariant := by
  refine fun s hs => ⟨fun v h t ht => ?_, fun code data labels t ht => ?_, fun t ht => ?_, fun _ => hs, fun _ => hs⟩
  · unfold registerInterrupt at ht
    split at ht
    · cases ht
    · split at ht
      · cases ht
      · cases ht
        exact hs.withHandler _ h
  · obtain ⟨hcode, hdata, rfl⟩ := load_cases ht
    exact hs.withImage hcode hdata
  · unfold run at ht
    split at ht
    · cases ht
      exact hs
    · cases ht

/-- Settles O5: the table after an installation is read back by `Ivt.get_put`. -/
theorem registrationThenOneRun : Obligations.RegistrationThenOneRun := by
  intro s
  refine ⟨fun v h hv => if_pos hv, fun v h hv hphase => ?_, fun v h hv hphase => ?_, fun hphase => if_pos hphase,
    fun hphase => if_neg hphase⟩
  · rw [registerInterrupt, if_neg (by omega), if_pos hphase]
  · refine ⟨{ s with ivt := Ivt.put s.ivt (BitVec.ofNat 8 v) h }, ?_, rfl, fun w => ?_⟩
    · rw [registerInterrupt, if_neg (by omega), if_neg hphase]
    · have hvector : w = BitVec.ofNat 8 v ↔ w.toNat = v := by
        rw [← BitVec.toNat_inj, BitVec.toNat_ofNat, Nat.mod_eq_of_lt hv]
      simp only [Ivt.get_put, hvector]

/-! ### The run loop -/

/-- Settles O6: dispatch of the decoded instruction, and the state past its opcode said as a whole. -/
theorem stepRunsTheDecodedInstruction : Obligations.StepRunsTheDecodedInstruction := by
  intro s i rest hloop hdec
  rw [step_eq_exec hloop hdec, State.afterOpcode_eq]

theorem State.fetchBytes_add (s : State) (m n : Nat) (a : Word) :
    s.fetchBytes (m + n) a = s.fetchBytes m a ++ s.fetchBytes n (a + BitVec.ofNat 32 m) := by
  induction m generalizing a with
  | zero => simp [State.fetchBytes]
  | succ m ih =>
    rw [Nat.succ_add, State.fetchBytes, State.fetchBytes, ih, List.cons_append, ← add_one_add_ofNat]
    rfl

/-- Fetches that give the bytes of a list, one after the other, give the list. -/
theorem State.fetchBytes_eq {s : State} {bs : List Byte} {a : Word}
    (h : ∀ k, k < bs.length → s.fetchByte (a + BitVec.ofNat 32 k) = bs.getD k 0) :
    s.fetchBytes bs.length a = bs := by
  induction bs generalizing a with
  | nil => rfl
  | cons b bs ih =>
    have hhead : s.fetchByte a = b := by simpa using h 0 (Nat.succ_pos _)
    have htail : s.fetchBytes bs.length (a + 1) = bs := ih fun k hk => by
      simpa [add_one_add_ofNat] using h (k + 1) (Nat.succ_lt_succ hk)
    rw [List.length_cons, State.fetchBytes, hhead, htail]

theorem Form.length_le_max (f : Form) : f.length ≤ maxInstrLength := by
  cases f <;> decide

/-- The bytes read for an instruction whose encoding lies at `ip` begin with that encoding. -/
theorem State.instrBytes_of_encode {s : State} {i : Instr}
    (h : ∀ k, k < i.length → s.fetchByte (s.ip + BitVec.ofNat 32 k) = (encode s.cfg.opc i).getD k 0) :
    ∃ rest, s.instrBytes = encode s.cfg.opc i ++ rest := by
  obtain ⟨n, hn⟩ := Nat.exists_eq_add_of_le (Form.length_le_max i.mnemonic.form)
  have hlength : maxInstrLength = (encode s.cfg.opc i).length + n := by rw [hn, length_encode]; rfl
  refine ⟨s.fetchBytes n (s.ip + BitVec.ofNat 32 (encode s.cfg.opc i).length), ?_⟩
  rw [State.instrBytes, hlength, State.fetchBytes_add, State.fetchBytes_eq fun k hk => h k (length_encode _ i ▸ hk)]

/-- Settles O7: the bytes at `ip` decode to the instruction, since decode inverts encode. -/
theorem stepRunsTheEncodedInstruction : Obligations.StepRunsTheEncodedInstruction := by
  intro s i hloop hinj hbytes
  obtain ⟨rest, hrest⟩ := State.instrBytes_of_encode hbytes
  exact stepRunsTheDecodedInstruction s i rest hloop (hrest ▸ decodeInvertsEncode s.cfg.opc i rest hinj)

/-- Settles O8, test by test. -/
theorem turnTestsComeInOrder : Obligations.TurnTestsComeInOrder := by
  intro s
  refine ⟨fun r hr => ?_, fun hnone hphase => ?_, fun hnone hphase => ⟨fun hcap => ?_, fun hcap hrun => ?_,
    fun hcap hrun hend => ?_⟩⟩
  · simp only [step, hr]
  · unfold step
    rw [hnone]
    cases hp : s.phase with
    | created => rfl
    | loaded => rfl
    | started => exact absurd hp hphase
  · simp [step, hnone, hphase, hcap, State.stop]
  · simp [step, hnone, hphase, hcap, hrun, State.stop]
  · simp [step, hnone, hphase, hcap, hrun, hend, State.stop]

/-- In the loop of a machine that meets the invariant, `ip` lies in the buffer: below `CODE_END`, so below the data
origin. -/
theorem State.Inv.ip_lt_memSize {s : State} (h : s.Inv) (hloop : s.inLoop) : s.ip.toNat < s.cfg.memSize := by
  obtain ⟨hvalid, -, -, -, hend⟩ := h
  obtain ⟨-, -, -, -, hip⟩ := hloop
  obtain ⟨-, hdata, -⟩ := layout_of_valid hvalid
  obtain ⟨-, hend⟩ := s.codeEndOk_iff.1 hend
  rw [BitVec.lt_def] at hip
  omega

/-- Settles O9: the opcode byte lies in the buffer, so its fetch makes no record. -/
theorem unassignedOpcodeStopsCleanly : Obligations.UnassignedOpcodeStopsCleanly := by
  intro s hs hloop hopcode
  have hip := hs.ip_lt_memSize hloop
  have hbyte : s.fetchByte s.ip = s.byteAt s.ip.toNat := if_pos hip
  have hreports : s.fetchReports 1 = [] :=
    State.fetchReports_of_inBuffer hip (layout_of_valid hs.1).2.2
  have hdecode : decode s.cfg.opc s.instrBytes = .error (.unassignedOpcode (s.fetchByte s.ip)) := by
    rw [State.instrBytes, maxInstrLength, State.fetchBytes, decode, hbyte, hopcode]
  rw [step_eq_dispatch hloop, State.dispatch, hdecode, State.afterOpcode_eq, hreports, hbyte, List.append_nil]
  rfl

end Sys2Proof.Machine
end

section
/-! PROOFS. What PRINT streams, and the reference line parser (44_system_io.md). -/

namespace Sys2Proof.Machine

/-! ### The printed string (D26, D50) -/

theorem State.length_stringFrom_le (s : State) (n a : Nat) : (s.stringFrom n a).length ≤ n := by
  induction n generalizing a with
  | zero => exact le_rfl
  | succ n ih =>
    rw [State.stringFrom]
    split
    · exact Nat.zero_le _
    · exact Nat.succ_le_succ (ih _)

/-- Each byte of the string is the byte of the buffer there, and not 0. -/
theorem State.getD_stringFrom (s : State) {n a k : Nat} (hk : k < (s.stringFrom n a).length) :
    (s.stringFrom n a).getD k 0 = s.byteAt (a + k) ∧ s.byteAt (a + k) ≠ 0 := by
  induction n generalizing a k with
  | zero => exact absurd hk (Nat.not_lt_zero k)
  | succ n ih =>
    rw [State.stringFrom] at hk ⊢
    split at hk
    · exact absurd hk (Nat.not_lt_zero k)
    · next hbyte =>
      rw [if_neg hbyte]
      cases k with
      | zero => exact ⟨rfl, hbyte⟩
      | succ k =>
        have htail := ih (Nat.lt_of_succ_lt_succ hk)
        rwa [Nat.add_right_comm] at htail

/-- A string shorter than its bound ends at a 0 byte. -/
theorem State.byteAt_end_stringFrom (s : State) {n a : Nat} (h : (s.stringFrom n a).length < n) :
    s.byteAt (a + (s.stringFrom n a).length) = 0 := by
  induction n generalizing a with
  | zero => exact absurd h (Nat.not_lt_zero _)
  | succ n ih =>
    rw [State.stringFrom] at h ⊢
    split at h
    · next hbyte =>
      rw [if_pos hbyte]
      exact hbyte
    · next hbyte =>
      rw [if_neg hbyte, List.length_cons, ← Nat.add_assoc, Nat.add_right_comm]
      exact ih (Nat.lt_of_succ_lt_succ h)

/-- Settles O40: the bound of the string is the room from the address to the end of the buffer. -/
theorem printedStringEndsAtNullOrBufferEnd : Obligations.PrintedStringEndsAtNullOrBufferEnd := by
  intro s a
  have hlength := s.length_stringFrom_le (s.cfg.memSize - a.toNat) a.toNat
  refine ⟨fun h => ?_, fun k hk => ?_, fun h => s.byteAt_end_stringFrom ?_⟩
  · rw [State.stringAt, Nat.sub_eq_zero_of_le h]
    rfl
  · obtain ⟨hget, hne⟩ := s.getD_stringFrom hk
    refine ⟨hget, hne, ?_⟩
    rw [State.stringAt] at hk
    omega
  · rw [State.stringAt] at h
    omega

/-! ### The printed number (D26) -/

theorem toNat_digitByte {d : Nat} (hd : d < 10) : (BitVec.ofNat 8 (48 + d)).toNat = 48 + d := by
  rw [BitVec.toNat_ofNat]
  omega

theorem decimalDigits_are_digits {fuel n : Nat} {b : Byte} (hb : b ∈ decimalDigits fuel n) :
    48 ≤ b.toNat ∧ b.toNat ≤ 57 := by
  induction fuel generalizing n with
  | zero => cases hb
  | succ fuel ih =>
    rw [decimalDigits] at hb
    split at hb
    · rw [List.mem_singleton.1 hb, toNat_digitByte (by omega)]
      omega
    · rcases List.mem_append.1 hb with hb | hb
      · exact ih hb
      · rw [List.mem_singleton.1 hb, toNat_digitByte (by omega)]
        omega

/-- With fuel for all its digits, the digits of a number have its value. -/
theorem value_decimalDigits {fuel n : Nat} (h : n < 10 ^ fuel) :
    (decimalDigits fuel n).foldl (fun n b => 10 * n + (b.toNat - 48)) 0 = n := by
  induction fuel generalizing n with
  | zero =>
    rw [pow_zero, Nat.lt_one_iff] at h
    exact h.symm
  | succ fuel ih =>
    rw [decimalDigits]
    split
    · rw [List.foldl_cons, List.foldl_nil, toNat_digitByte (by omega)]
      omega
    · rw [List.foldl_concat, ih (by omega), toNat_digitByte (by omega)]
      omega

theorem decimalDigits_ne_nil (fuel n : Nat) : decimalDigits (fuel + 1) n ≠ [] := by
  rw [decimalDigits]
  split
  · exact List.cons_ne_nil _ _
  · exact List.append_ne_nil_of_right_ne_nil _ (List.cons_ne_nil _ _)

/-- Only 0 has the leading digit 0. -/
theorem eq_zero_of_head_decimalDigits {fuel n : Nat} (h : n < 10 ^ (fuel + 1))
    (hhead : (decimalDigits (fuel + 1) n).head? = some 0x30) : n = 0 := by
  induction fuel generalizing n with
  | zero =>
    rw [decimalDigits, if_pos (by simpa using h), List.head?_cons, Option.some_inj] at hhead
    have hbyte := congrArg BitVec.toNat hhead
    rw [toNat_digitByte (by simpa using h)] at hbyte
    exact Nat.add_left_cancel hbyte
  | succ fuel ih =>
    rw [decimalDigits] at hhead
    split at hhead
    · next hn =>
      rw [List.head?_cons, Option.some_inj] at hhead
      have hbyte := congrArg BitVec.toNat hhead
      rw [toNat_digitByte hn] at hbyte
      exact Nat.add_left_cancel hbyte
    · rw [List.head?_append_of_ne_nil _ (decimalDigits_ne_nil _ _)] at hhead
      have hdiv : n / 10 = 0 := ih (by rw [pow_succ] at h; omega) hhead
      omega

/-- A 32-bit value has at most 10 digits. -/
theorem toNat_lt_ten_pow (v : Word) : v.toNat < 10 ^ 10 := lt_trans v.isLt (by norm_num)

/-- Settles O41: ten digits hold every 32-bit value, and only 0 begins with the digit 0. -/
theorem printedNumberIsItsDecimal : Obligations.PrintedNumberIsItsDecimal := by
  refine fun v => ⟨fun b hb => decimalDigits_are_digits hb, value_decimalDigits (toNat_lt_ten_pow v),
    decimalDigits_ne_nil 9 _, fun hhead => ?_⟩
  rw [asciiDecimal, eq_zero_of_head_decimalDigits (toNat_lt_ten_pow v) hhead]
  decide

/-! ### The reference parser reads it back (D25) -/

theorem toNat_ofNat_digit {n : Nat} (h : 48 ≤ n ∧ n ≤ 57) : (Char.ofNat n).toNat = n := by
  rw [Char.toNat_ofNat, if_pos]
  exact .inl (by omega)

theorem asText_are_digits {ds : List Byte} (hds : ∀ b ∈ ds, 48 ≤ b.toNat ∧ b.toNat ≤ 57) {c : Char}
    (hc : c ∈ asText ds) : 48 ≤ c.toNat ∧ c.toNat ≤ 57 := by
  obtain ⟨b, hb, rfl⟩ := List.mem_map.1 hc
  rw [toNat_ofNat_digit (hds b hb)]
  exact hds b hb

theorem decimalValue_asText {ds : List Byte} (hds : ∀ b ∈ ds, 48 ≤ b.toNat ∧ b.toNat ≤ 57) :
    decimalValue (asText ds) = ds.foldl (fun n b => 10 * n + (b.toNat - 48)) 0 := by
  rw [decimalValue, asText, List.foldl_map]
  exact List.foldl_ext _ _ _ fun n b hb => by rw [toNat_ofNat_digit (hds b hb)]

/-- The text of one or more digits. -/
def IsDigits (t : Text) : Prop := t ≠ [] ∧ ∀ c ∈ t, 48 ≤ c.toNat ∧ c.toNat ≤ 57

theorem IsDigits.isDecimal {t : Text} (h : IsDigits t) : isDecimal t = true := by
  obtain ⟨hne, hdigits⟩ := h
  simp only [Machine.isDecimal, Bool.and_eq_true, Bool.not_eq_true', List.isEmpty_eq_false_iff, List.all_eq_true,
    isDigit, decide_eq_true_eq]
  exact ⟨hne, hdigits⟩

theorem isDigits_asciiDecimal (v : Word) : IsDigits (asText (asciiDecimal v)) :=
  ⟨fun h => decimalDigits_ne_nil 9 v.toNat (List.map_eq_nil_iff.1 h),
    fun _ hc => asText_are_digits (fun _ hb => decimalDigits_are_digits hb) hc⟩

theorem decimalValue_asciiDecimal (v : Word) : decimalValue (asText (asciiDecimal v)) = v.toNat :=
  (decimalValue_asText fun _ hb => decimalDigits_are_digits hb).trans (value_decimalDigits (toNat_lt_ten_pow v))

/-- No character above the space is whitespace. -/
theorem isSpace_of_lt {c : Char} (h : 32 < c.toNat) : isSpace c = false := by
  have hne : c ≠ ' ' := by
    rintro rfl
    exact absurd h (by decide)
  simp [isSpace, hne]
  omega

theorem dropWhile_isSpace_append {t : Text} (hne : t ≠ []) (ht : ∀ c ∈ t, isSpace c = false) (u : Text) :
    (t ++ u).dropWhile isSpace = t ++ u := by
  cases t with
  | nil => exact absurd rfl hne
  | cons c t => rw [List.cons_append, List.dropWhile_cons_of_neg (by simp [ht c List.mem_cons_self])]

/-- Stripping takes the whitespace around a text that has none inside. -/
theorem strip_padded {before t after : Text} (hbefore : ∀ c ∈ before, isSpace c = true)
    (hafter : ∀ c ∈ after, isSpace c = true) (hne : t ≠ []) (ht : ∀ c ∈ t, isSpace c = false) :
    strip (before ++ t ++ after) = t := by
  have hrest : (t ++ after).reverse.dropWhile isSpace = t.reverse := by
    rw [List.reverse_append, List.dropWhile_append_of_pos fun c hc => hafter c (List.mem_reverse.1 hc),
      ← List.append_nil t.reverse]
    exact dropWhile_isSpace_append (List.reverse_ne_nil_iff.2 hne) (fun c hc => ht c (List.mem_reverse.1 hc)) []
  rw [strip, List.append_assoc, List.dropWhile_append_of_pos hbefore, dropWhile_isSpace_append hne ht, hrest,
    List.reverse_reverse]

theorem parseDecimal_plus {line ds : Text} (hstrip : strip line = '+' :: ds) (h : IsDigits ds) :
    parseDecimal line = some (decimalValue ds : Int) := by
  rw [parseDecimal, hstrip]
  exact if_pos h.isDecimal

theorem parseDecimal_minus {line ds : Text} (hstrip : strip line = '-' :: ds) (h : IsDigits ds) :
    parseDecimal line = some (-(decimalValue ds : Int)) := by
  rw [parseDecimal, hstrip]
  exact if_pos h.isDecimal

/-- A text of digits begins with no sign. -/
theorem parseDecimal_unsigned {line ds : Text} (hstrip : strip line = ds) (h : IsDigits ds) :
    parseDecimal line = some (decimalValue ds : Int) := by
  rw [parseDecimal]
  split
  · next t hplus =>
    have hsign := h.2 '+' (by rw [← hstrip, hplus]; exact List.mem_cons_self)
    exact absurd hsign (by decide)
  · next t hminus =>
    have hsign := h.2 '-' (by rw [← hstrip, hminus]; exact List.mem_cons_self)
    exact absurd hsign (by decide)
  · rw [hstrip]
    exact if_pos h.isDecimal

/-- Settles O42: stripping leaves the sign and the digits, none of them whitespace, and the digits have the value of
the number. -/
theorem referenceParserReadsPrintedNumbers : Obligations.ReferenceParserReadsPrintedNumbers := by
  intro v before after hbefore hafter
  have hdigits := isDigits_asciiDecimal v
  have hinside : ∀ c ∈ asText (asciiDecimal v), isSpace c = false := fun c hc =>
    isSpace_of_lt (lt_of_lt_of_le (by decide) (hdigits.2 c hc).1)
  have hsigned (sign : Char) (hsign : isSpace sign = false) :
      strip (before ++ sign :: asText (asciiDecimal v) ++ after) = sign :: asText (asciiDecimal v) :=
    strip_padded hbefore hafter (List.cons_ne_nil _ _) (List.forall_mem_cons.2 ⟨hsign, hinside⟩)
  rw [← decimalValue_asciiDecimal v]
  exact ⟨parseDecimal_unsigned (strip_padded hbefore hafter hdigits.1 hinside) hdigits,
    parseDecimal_plus (hsigned '+' (by decide)) hdigits, parseDecimal_minus (hsigned '-' (by decide)) hdigits⟩

end Sys2Proof.Machine
end

section
/-! PROOFS. The assembler (30_encoding.md sections 6 to 9, 60_exceptions.md section 1): the cursors of the passes
against the code they emit, the label table, the operands it resolves and the records it reports. -/

namespace Sys2Proof.Machine

/-! ### The label table (R145, R152) -/

theorem Labels.find_bind (t : Labels) (name : Text) (v : Word) (n : Text) :
    Labels.find (Labels.bind t name v) n = if n = name then some v else Labels.find t n := by
  induction t with
  | nil => rfl
  | cons entry t ih =>
    obtain ⟨k, w⟩ := entry
    rw [Labels.bind]
    split
    · next h =>
      subst h
      by_cases hn : n = name <;> simp [Labels.find, hn]
    · next h =>
      by_cases hn : n = k
      · simp [Labels.find, hn, Ne.symm h]
      · simp [Labels.find, hn, ih]

theorem Labels.find_bindLabel_self (t : Labels) (name : Text) (a : Nat) :
    Labels.find (t.bindLabel (some name) a) name = some (BitVec.ofNat 32 a) := by
  rw [Labels.bindLabel, Labels.find_bind, if_pos rfl]

theorem Labels.find_bindLabel_of_ne (t : Labels) {label : Option Text} {name : Text} (h : label ≠ some name)
    (a : Nat) : Labels.find (t.bindLabel label a) name = Labels.find t name := by
  cases label with
  | none => rfl
  | some k =>
    have hne : name ≠ k := fun hk => h (congrArg some hk.symm)
    rw [Labels.bindLabel, Labels.find_bind, if_neg hne]

/-- Settles O53: an `equ` line is a binding in pass 1 and nothing in passes 3 and 4. -/
theorem equBindsAndEmitsNothing : Obligations.EquBindsAndEmitsNothing :=
  fun _ p name _ _ _ _ _ => ⟨rfl, rfl, fun n => Labels.find_bind p.labels name _ n, rfl, rfl⟩

/-! ### The code cursor and the code (30_encoding.md section 9) -/

/-- The bytes of code that pass 3 emits for a line. -/
def Line.emittedSize (cfg : Config) (l : Line) : Nat :=
  match l.kind with
  | .instr token _ => ((mnemonicNamed cfg token).map fun m => m.form.length).getD 0
  | .empty | .data _ | .const _ _ => 0

theorem pass1From_cc (cfg : Config) (p : Scan) (ls : List Line) :
    (pass1From cfg p ls).cc = p.cc + (ls.map (Line.codeSize cfg)).sum := by
  induction ls generalizing p with
  | nil => rfl
  | cons l ls ih => rw [pass1From, ih, List.map_cons, List.sum_cons, ← Nat.add_assoc]; rfl

theorem pass1From_dc (cfg : Config) (p : Scan) (ls : List Line) :
    (pass1From cfg p ls).dc = p.dc + (ls.map Line.dataSize).sum := by
  induction ls generalizing p with
  | nil => rfl
  | cons l ls ih => rw [pass1From, ih, List.map_cons, List.sum_cons, ← Nat.add_assoc]; rfl

/-- What the assembler builds for a mnemonic is an instruction of it. -/
theorem buildInstr_mnemonic (cfg : Config) (labels : Labels) (n : Nat) (m : Mnemonic) (ops : List Text) :
    (buildInstr cfg labels n m ops).instr.mnemonic = m := by
  cases m <;> rfl

/-- What pass 3 does on a line: it appends an instruction, reports a token that names no mnemonic, or does nothing. -/
theorem codeLine_cases (cfg : Config) (labels : Labels) (e : Emission) (i : Nat) (l : Line) :
    (∃ m ops, l.emittedSize cfg = m.form.length ∧ e.codeLine cfg labels i l =
      { e with
        code := e.code ++ encode cfg.opc (buildInstr cfg labels e.data.length m ops).instr
        data := e.data ++ (buildInstr cfg labels e.data.length m ops).pool }) ∨
    (l.emittedSize cfg = 0 ∧
      ∃ token, e.codeLine cfg labels i l = { e with diags := e.diags ++ [.syntaxError i token] }) ∨
    (l.emittedSize cfg = 0 ∧ e.codeLine cfg labels i l = e) := by
  cases hk : l.kind with
  | instr token operands =>
    cases hm : mnemonicNamed cfg token with
    | some m =>
      refine .inl ⟨m, splitCommas operands, ?_, ?_⟩
      · simp only [Line.emittedSize, hk, hm, Option.map_some, Option.getD_some]
      · simp only [Emission.codeLine, hk, hm]
    | none =>
      refine .inr (.inl ⟨?_, token, ?_⟩)
      · simp only [Line.emittedSize, hk, hm, Option.map_none, Option.getD_none]
      · simp only [Emission.codeLine, hk, hm]
  | empty | data | const =>
    refine .inr (.inr ⟨?_, ?_⟩)
    · simp only [Line.emittedSize, hk]
    · simp only [Emission.codeLine, hk]

theorem length_codeLine (cfg : Config) (labels : Labels) (e : Emission) (i : Nat) (l : Line) :
    (e.codeLine cfg labels i l).code.length = e.code.length + l.emittedSize cfg := by
  obtain ⟨m, ops, hsize, hline⟩ | ⟨hsize, token, hline⟩ | ⟨hsize, hline⟩ := codeLine_cases cfg labels e i l
  · rw [hline, hsize, List.length_append, length_encode, Instr.length, buildInstr_mnemonic]
  · rw [hline, hsize, Nat.add_zero]
  · rw [hline, hsize, Nat.add_zero]

theorem length_pass3From (cfg : Config) (labels : Labels) (e : Emission) (i : Nat) (ls : List Line) :
    (pass3From cfg labels e i ls).code.length = e.code.length + (ls.map (Line.emittedSize cfg)).sum := by
  induction ls generalizing e i with
  | nil => rfl
  | cons l ls ih => rw [pass3From, ih, length_codeLine, List.map_cons, List.sum_cons, Nat.add_assoc]

/-- The declared and the emitted size of a mnemonic differ for PRINT alone. -/
theorem declSize_add (cfg : Config) (m : Mnemonic) :
    m.form.length + cfg.printDeclSize * (if m = .print then 1 else 0) =
      declSize cfg m + 6 * (if m = .print then 1 else 0) := by
  cases m with
  | print => simp [declSize, Mnemonic.form, Form.length, Nat.add_comm]
  | _ => rfl

theorem emittedSize_add_printLines (cfg : Config) (l : Line) :
    l.emittedSize cfg + cfg.printDeclSize * printLines cfg [l] = l.codeSize cfg + 6 * printLines cfg [l] := by
  rw [printLines, List.countP_singleton]
  unfold Line.emittedSize Line.codeSize
  cases l.kind with
  | instr token operands =>
    cases hm : mnemonicNamed cfg token with
    | none => simp [tokenSize, hm]
    | some m => simpa [tokenSize, hm] using declSize_add cfg m
  | empty => rfl
  | data => rfl
  | const => rfl

theorem printLines_cons (cfg : Config) (l : Line) (ls : List Line) :
    printLines cfg (l :: ls) = printLines cfg [l] + printLines cfg ls := by
  rw [printLines, ← List.singleton_append, List.countP_append]
  rfl

theorem sum_emittedSize_add (cfg : Config) (ls : List Line) :
    (ls.map (Line.emittedSize cfg)).sum + cfg.printDeclSize * printLines cfg ls =
      (ls.map (Line.codeSize cfg)).sum + 6 * printLines cfg ls := by
  induction ls with
  | nil => rfl
  | cons l ls ih =>
    have hline := emittedSize_add_printLines cfg l
    rw [List.map_cons, List.map_cons, List.sum_cons, List.sum_cons, printLines_cons, Nat.mul_add, Nat.mul_add]
    omega

/-- Settles O54: both sides are sums over the lines, which differ line by line as stated. -/
theorem codeCursorMatchesTheEmittedCode : Obligations.CodeCursorMatchesTheEmittedCode := by
  intro cfg labels ls
  have hsum := sum_emittedSize_add cfg ls
  rw [pass1, pass1From_cc, length_pass3From, List.length_nil, Nat.zero_add, Nat.add_assoc, hsum, ← Nat.add_assoc]

/-! ### Labels and addresses (30_encoding.md section 6) -/

/-- Pass 1 over a list in two parts: the cursors come to the second part moved by the first. -/
theorem pass1From_append (cfg : Config) (p : Scan) (before rest : List Line) :
    ∃ q, pass1From cfg p (before ++ rest) = pass1From cfg q rest ∧
      q.cc = p.cc + (before.map (Line.codeSize cfg)).sum := by
  induction before generalizing p with
  | nil => exact ⟨p, rfl, rfl⟩
  | cons l before ih =>
    obtain ⟨q, hq, hcc⟩ := ih (p.line cfg l (before ++ rest).head?)
    refine ⟨q, hq, ?_⟩
    rw [hcc, List.map_cons, List.sum_cons, ← Nat.add_assoc]
    rfl

/-- A line that does not bind a name leaves it as it is. -/
theorem find_line_of_not_lineBinds (cfg : Config) (p : Scan) {l : Line} {name : Text}
    (h : lineBinds name l = false) (next : Option Line) :
    Labels.find (p.line cfg l next).labels name = Labels.find p.labels name := by
  simp only [lineBinds, Bool.or_eq_false_iff, beq_eq_false_iff_ne] at h
  obtain ⟨hlabel, hconst⟩ := h
  have hbound := Labels.find_bindLabel_of_ne p.labels hlabel (if l.bindsData next then p.dc else p.cc)
  unfold Scan.line
  cases hk : l.kind with
  | const n value =>
    rw [hk] at hconst
    have hne : name ≠ n := fun hn => by simp [hn] at hconst
    exact (Labels.find_bind _ n _ name).trans ((if_neg hne).trans hbound)
  | empty => exact hbound
  | data => exact hbound
  | instr => exact hbound

theorem find_pass1From (cfg : Config) (p : Scan) {ls : List Line} {name : Text}
    (h : ∀ k ∈ ls, lineBinds name k = false) :
    Labels.find (pass1From cfg p ls).labels name = Labels.find p.labels name := by
  induction ls generalizing p with
  | nil => rfl
  | cons l ls ih =>
    rw [pass1From, ih _ fun k hk => h k (List.mem_cons_of_mem _ hk),
      find_line_of_not_lineBinds cfg p (h l List.mem_cons_self)]

/-- A line whose label is no data label, and that is no constant of that name, binds its label to the code cursor. -/
theorem find_line_codeLabel (cfg : Config) (p : Scan) {l : Line} {name : Text} {next : Option Line}
    (hlabel : l.label = some name) (hcode : l.bindsData next = false) (hconst : ∀ v, l.kind ≠ .const name v) :
    Labels.find (p.line cfg l next).labels name = some (BitVec.ofNat 32 p.cc) := by
  have hbound := Labels.find_bindLabel_self p.labels name p.cc
  unfold Scan.line
  rw [hlabel, hcode]
  cases hk : l.kind with
  | const n value =>
    have hne : name ≠ n := by
      rintro rfl
      exact hconst value hk
    exact (Labels.find_bind _ n _ name).trans ((if_neg hne).trans hbound)
  | empty => exact hbound
  | data => exact hbound
  | instr => exact hbound

theorem find_rebindLine_of_ne {l : Line} {name : Text} (h : l.label ≠ some name) (dc : Nat) (t : Labels)
    (next : Option Line) : Labels.find (rebindLine dc t l next) name = Labels.find t name := by
  unfold rebindLine
  split
  · exact Labels.find_bindLabel_of_ne t h dc
  · rfl

/-- Pass 2 over a list in two parts: the cursor comes to the second part moved by the first, and a name that labels no
line of the first part is as it was. -/
theorem pass2From_append (dc : Nat) (t : Labels) (before rest : List Line) :
    ∃ u, pass2From dc t (before ++ rest) = pass2From (dc + (before.map Line.dataSize).sum) u rest ∧
      ∀ name, (∀ k ∈ before, k.label ≠ some name) → Labels.find u name = Labels.find t name := by
  induction before generalizing dc t with
  | nil => exact ⟨t, rfl, fun _ _ => rfl⟩
  | cons l before ih =>
    obtain ⟨u, hu, hfind⟩ := ih (dc + l.dataSize) (rebindLine dc t l (before ++ rest).head?)
    refine ⟨u, ?_, fun name h => ?_⟩
    · rw [List.cons_append, pass2From, hu, List.map_cons, List.sum_cons, Nat.add_assoc]
    · rw [hfind name fun k hk => h k (List.mem_cons_of_mem _ hk), find_rebindLine_of_ne (h l List.mem_cons_self)]

theorem find_pass2From (dc : Nat) (t : Labels) {ls : List Line} {name : Text} (h : ∀ k ∈ ls, k.label ≠ some name) :
    Labels.find (pass2From dc t ls).2 name = Labels.find t name := by
  obtain ⟨u, hu, hfind⟩ := pass2From_append dc t ls []
  rw [List.append_nil] at hu
  rw [hu]
  exact hfind name h

theorem label_ne_of_not_lineBinds {l : Line} {name : Text} (h : lineBinds name l = false) :
    l.label ≠ some name := by
  simp only [lineBinds, Bool.or_eq_false_iff, beq_eq_false_iff_ne] at h
  exact h.1

/-- Pass 2 leaves a code label that no other line binds. -/
theorem find_pass2_codeLabel (cfg : Config) (t : Labels) {before after : List Line} {l : Line} {name : Text}
    (hcode : l.bindsData after.head? = false) (hothers : ∀ k ∈ before ++ after, lineBinds name k = false) :
    Labels.find (pass2 cfg (before ++ l :: after) t).2 name = Labels.find t name := by
  obtain ⟨u, hu, hbefore⟩ := pass2From_append cfg.dataOrigin t before (l :: after)
  have hrebind (dc : Nat) : rebindLine dc u l after.head? = u := by rw [rebindLine, hcode]; rfl
  rw [pass2, hu, pass2From, hrebind, find_pass2From _ _ fun k hk =>
    label_ne_of_not_lineBinds (hothers k (List.mem_append_right _ hk))]
  exact hbefore name fun k hk => label_ne_of_not_lineBinds (hothers k (List.mem_append_left _ hk))

/-- Settles O55: pass 1 binds the label to its code cursor, which is where pass 3 is when it comes to the line, and no
later binding replaces it. -/
theorem codeLabelsNameEmittedAddresses : Obligations.CodeLabelsNameEmittedAddresses := by
  intro cfg before after l name labels hsize hlabel hcode hconst hothers
  have hcursor := codeCursorMatchesTheEmittedCode cfg labels before
  rw [hsize, Nat.add_right_cancel_iff, pass1, pass1From_cc] at hcursor
  obtain ⟨q, hq, hcc⟩ := pass1From_append cfg ⟨cfg.codeOrigin, cfg.dataOrigin, []⟩ before (l :: after)
  rw [labelTable, find_pass2_codeLabel cfg _ hcode hothers, pass1, hq, pass1From,
    find_pass1From cfg _ fun k hk => hothers k (List.mem_append_right _ hk),
    find_line_codeLabel cfg q hlabel hcode hconst, hcc, hcursor]

theorem pass2From_dc (dc : Nat) (t : Labels) (ls : List Line) :
    (pass2From dc t ls).1 = dc + (ls.map Line.dataSize).sum := by
  obtain ⟨u, hu, -⟩ := pass2From_append dc t ls []
  rw [List.append_nil] at hu
  rw [hu]
  rfl

/-- Settles O56: the cursor is a sum over the lines, and the binding of the label is the last of its name. -/
theorem passesAgreeOnTheDataCursor : Obligations.PassesAgreeOnTheDataCursor := by
  intro cfg ls t
  refine ⟨by rw [pass2, pass2From_dc, pass1, pass1From_dc], ?_⟩
  rintro before after l name rfl hlabel hdata hafter
  obtain ⟨u, hu, -⟩ := pass2From_append cfg.dataOrigin t before (l :: after)
  rw [pass2, hu, pass2From, find_pass2From _ _ hafter, rebindLine, hdata, hlabel]
  exact Labels.find_bindLabel_self u name _

/-! ### Emission (30_encoding.md section 7) -/

/-- Settles O57: a string literal is the case of `print_operand` that adds to the pool. -/
theorem printStringsGoToThePool : Obligations.PrintStringsGoToThePool := by
  intro cfg labels e i l token operands lit hkind hprint hlit hstring
  have hoperand : operandText (splitCommas operands) 0 = lit := by rw [operandText, hlit]; rfl
  simp only [Emission.codeLine, hkind, hprint, buildInstr, printOperand, hoperand, hstring, if_true, immOperand,
    List.append_assoc]

theorem regOperand_wellFormed (c : RegCode) : (regOperand c).wellFormed = true := by
  cases c <;> decide

theorem immOperand_wellFormed (v : Word) : (immOperand v).wellFormed = true := rfl

theorem memOperand_wellFormed (a : Word) : (memOperand a).wellFormed = true := rfl

theorem unknownOperand_wellFormed : unknownOperand.wellFormed = true := rfl

/-- Whatever case of R156 applies. -/
theorem resolve_wellFormed (cfg : Config) (labels : Labels) (t : Text) :
    (resolve cfg labels t).wellFormed = true := by
  unfold resolve
  split
  · exact unknownOperand_wellFormed
  · split
    · exact regOperand_wellFormed _
    · split
      · exact immOperand_wellFormed _
      · split
        · exact memOperand_wellFormed _
        · exact unknownOperand_wellFormed

/-- Settles O58: a string's operand is an immediate, any other operand a resolved one. -/
theorem assembledOperandsAreWellFormed : Obligations.AssembledOperandsAreWellFormed := by
  intro cfg labels n t
  refine ⟨resolve_wellFormed cfg labels t, ?_⟩
  unfold printOperand
  split
  · exact immOperand_wellFormed _
  · exact resolve_wellFormed cfg labels t

/-! ### The records (R401, D54) -/

/-- Every record so far is a SyntaxError with the number of one of the first `n` lines. -/
def ReportsBelow (n : Nat) (ds : List Diagnostic) : Prop :=
  ∀ d ∈ ds, ∃ line token, d = .syntaxError line token ∧ line < n

theorem ReportsBelow.append {n : Nat} {ds es : List Diagnostic} (hds : ReportsBelow n ds) (hes : ReportsBelow n es) :
    ReportsBelow n (ds ++ es) :=
  fun d hd => (List.mem_append.1 hd).elim (hds d) (hes d)

theorem reportsBelow_nil (n : Nat) : ReportsBelow n [] := nofun

theorem reportsBelow_syntaxError {i n : Nat} (hi : i < n) (token : Text) :
    ReportsBelow n [.syntaxError i token] :=
  fun _ hd => ⟨i, token, List.mem_singleton.1 hd, hi⟩

theorem reportsBelow_codeLine (cfg : Config) (labels : Labels) {e : Emission} {i n : Nat}
    (he : ReportsBelow n e.diags) (hi : i < n) (l : Line) : ReportsBelow n (e.codeLine cfg labels i l).diags := by
  obtain ⟨m, ops, -, hline⟩ | ⟨-, token, hline⟩ | ⟨-, hline⟩ := codeLine_cases cfg labels e i l
  · rwa [hline]
  · rw [hline]
    exact he.append (reportsBelow_syntaxError hi token)
  · rwa [hline]

theorem reportsBelow_pass3From (cfg : Config) (labels : Labels) {e : Emission} {i n : Nat} {ls : List Line}
    (he : ReportsBelow n e.diags) (hi : i + ls.length ≤ n) :
    ReportsBelow n (pass3From cfg labels e i ls).diags := by
  induction ls generalizing e i with
  | nil => exact he
  | cons l ls ih =>
    rw [List.length_cons] at hi
    exact ih (reportsBelow_codeLine cfg labels he (by omega) l) (by omega)

theorem reportsBelow_itemBytes (cfg : Config) {i n : Nat} (hi : i < n) (tok : Text) :
    ReportsBelow n (itemBytes cfg i tok).2 := by
  unfold itemBytes
  split
  · split <;> exact reportsBelow_nil n
  · split
    · exact reportsBelow_nil n
    · exact reportsBelow_syntaxError hi tok

theorem reportsBelow_items (cfg : Config) {e : Emission} {i n : Nat} (he : ReportsBelow n e.diags) (hi : i < n)
    (toks : List Text) : ReportsBelow n (toks.foldl (Emission.item cfg i) e).diags := by
  induction toks generalizing e with
  | nil => exact he
  | cons tok toks ih => exact ih (e := e.item cfg i tok) (he.append (reportsBelow_itemBytes cfg hi tok))

theorem reportsBelow_dataLine (cfg : Config) {e : Emission} {i n : Nat} (he : ReportsBelow n e.diags) (hi : i < n)
    (l : Line) : ReportsBelow n (e.dataLine cfg i l).diags := by
  unfold Emission.dataLine
  cases l.kind with
  | data items => exact reportsBelow_items cfg he hi _
  | empty => exact he
  | const => exact he
  | instr => exact he

theorem reportsBelow_pass4From (cfg : Config) {e : Emission} {i n : Nat} {ls : List Line}
    (he : ReportsBelow n e.diags) (hi : i + ls.length ≤ n) : ReportsBelow n (pass4From cfg e i ls).diags := by
  induction ls generalizing e i with
  | nil => exact he
  | cons l ls ih =>
    rw [List.length_cons] at hi
    exact ih (reportsBelow_dataLine cfg he (by omega) l) (by omega)

/-- Settles O59: the passes number the lines they walk from 0 up. -/
theorem assemblerReportsOnlySyntaxErrors : Obligations.AssemblerReportsOnlySyntaxErrors := by
  intro cfg source
  have hlines : 0 + (parseSource cfg source).length ≤ (sourceLines source).length := by
    rw [Nat.zero_add, parseSource, List.length_map]
  exact reportsBelow_pass4From cfg (reportsBelow_pass3From cfg _ (reportsBelow_nil _) hlines) hlines

end Sys2Proof.Machine
end
